-- ==== Sys2Proof/Word.lean ====
section
/-! DEFINITION. The word types of zerocrush CORE and the two-valued mode (`00_scope.md` R12 to R14). -/

namespace Sys2Proof

/-- One byte of the compressed stream, `BYTE_W = 8` bits (R9, R12). -/
abbrev Byte := BitVec 8

/-- A bit string or raw bit sequence, first bit first (R13). A bit is a `Bool`: `true` is 1. -/
abbrev Bits := List Bool

/-- The two values of a mode, that is, the two code tables (R14). It is no privilege mode (R197). -/
inductive Mode where
  | mode0
  | mode1
deriving DecidableEq, Repr

/-- `bit(Mode0) = 0`, `bit(Mode1) = 1` (R14). -/
def Mode.bit : Mode → Bool
  | .mode0 => false
  | .mode1 => true

/-- `mode(0) = Mode0`, `mode(1) = Mode1` (R14). -/
def Mode.ofBit : Bool → Mode
  | false => .mode0
  | true => .mode1

/-- `other(Mode0) = Mode1`, `other(Mode1) = Mode0` (R14). -/
def Mode.other : Mode → Mode
  | .mode0 => .mode1
  | .mode1 => .mode0

end Sys2Proof
end

