-- ==== Sys2Proof/Config.lean ====
section
/-! DEFINITION. The fixed constants of the code table (`00_scope.md` R9, R10). The spec leaves no value open
at run time (R16), so there is no free value here. -/

namespace Sys2Proof.Config

/-- `ZMAX`: bound on the leading-zero count of a pattern (R9). -/
abbrev zMax : Nat := 12

/-- `OVF_W`: width of the overflow-tier suffix (R9). -/
abbrev ovfW : Nat := 12

/-- `SUF_CONT` (R9, R134). -/
abbrev sufCont : Nat := 0xFFD

/-- `SUF_MCHG` (R9, R134). -/
abbrev sufMchg : Nat := 0xFFE

/-- `SUF_TERM` (R9, R134). -/
abbrev sufTerm : Nat := 0xFFF

/-- `OVF_XMAX`: the largest overflow suffix that is data (R10). The source leaves it open and the spec
fixes it (decision D1); kept as one named constant, as R10 asks. Log entry 1. -/
abbrev ovfXmax : Nat := 4092

/-- `OVF_MIN[tbl]`: the smallest run length of the overflow tier (R9). -/
def ovfMin : Mode → Nat
  | .mode0 => 8191
  | .mode1 => 13

/-- `MAX[tbl] = OVF_MIN[tbl] + OVF_XMAX` (R10). -/
def maxLen (tbl : Mode) : Nat := ovfMin tbl + ovfXmax

/-- `SYM_MAX_BITS`: the longest pattern, and the largest `width` of the Bit Sequencer (R9, R86, R90). -/
abbrev symMaxBits : Nat := 24

/-- `INIT_MODE` (R9): the initial active mode of ENC and DEC. -/
abbrev initMode : Mode := .mode0

end Sys2Proof.Config
end

