-- ==== Sys2Proof/Machine/BitSequencer.lean ====
section
/-! DEFINITION. Bit strings, the byte buffer as memory, and the reading half of the Bit Sequencer as pure
functions of a buffer and a bit address (`00_scope.md` R12, R13, R15; `20_memory.md` R46 to R56;
`40_bit_sequencer.md` R90 to R95). -/

namespace Sys2Proof.Machine

/-! ## Numerals and packing -/

/-- `bin_w(v)`: the `w`-bit string whose first bit is `v[w-1]` and last bit is `v[0]` (R13). -/
def bin : Nat → Nat → Bits
  | 0, _ => []
  | w + 1, v => v.testBit w :: bin w v

/-- The unsigned number whose numeral is a bit string, first bit most significant (R13). -/
def natOfBits (bs : Bits) : Nat := bs.foldl (fun a b => 2 * a + b.toNat) 0

/-- The byte whose most significant bits are the first at most eight of `bs`, the rest zero (R12, R88). -/
def byteOfBits (bs : Bits) : Byte := BitVec.ofNat 8 (natOfBits bs * 2 ^ (8 - bs.length))

/-- A bit string packed most significant bit first and zero-padded to a byte boundary (R48, R63). -/
def packBytes (bs : Bits) : List Byte :=
  (List.range ((bs.length + 7) / 8)).map fun j => byteOfBits ((bs.drop (8 * j)).take 8)

/-! ## Memory: the byte buffer of a decode call -/

/-- The address space of DEC: the bytes `buf[0] .. buf[N-1]` of the call's buffer, one cell each (R27, R46).
Canonical form: `Memory.wf`. An unlisted address does not exist and has no value (R54, V7). -/
abbrev Memory := List Host.Cell

/-- The cells carry the addresses `a, a+1, ...` in this order. -/
def Memory.wfFrom : Nat → Memory → Bool
  | _, [] => true
  | a, (b, _) :: m => b == a && Memory.wfFrom (a + 1) m

/-- The canonical form: addresses `0 .. N-1`, each once, rising. -/
def Memory.wf (m : Memory) : Bool := Memory.wfFrom 0 m

/-- The cells of a byte sequence laid from address `a` up. -/
def Memory.cellsFrom : Nat → List Byte → Memory
  | _, [] => []
  | a, b :: bs => (a, b) :: Memory.cellsFrom (a + 1) bs

/-- The buffer the caller hands over: byte `j` at address `j` (R39, R53). -/
def Memory.ofBytes (bs : List Byte) : Memory := Memory.cellsFrom 0 bs

/-- The bytes in address order. -/
def Memory.bytes (m : Memory) : List Byte := m.map Prod.snd

/-- `N`, the number of bytes of the buffer (R12, R27). -/
def Memory.size (m : Memory) : Nat := m.length

/-- The byte at an address; `none` where no byte exists (R54). -/
def Memory.byte? : Memory → Nat → Option Byte
  | [], _ => none
  | (a, b) :: m, i => if a = i then some b else Memory.byte? m i

/-- `BitAt(buf, i)`: bit `7 − (i mod 8)` of byte `buf[i div 8]` (R12). It is asked only below `8N`. -/
def bitAt (m : Memory) (i : Nat) : Bool :=
  match m.byte? (i / 8) with
  | some b => b.getLsbD (7 - i % 8)
  | none => false

/-- The `n` stream bits at `pos .. pos+n-1`, in stream order. -/
def bitsAt (m : Memory) : Nat → Nat → Bits
  | _, 0 => []
  | pos, n + 1 => bitAt m pos :: bitsAt m (pos + 1) n

/-- `MemRead(addr, n)` (R15). -/
def memRead (m : Memory) (pos n : Nat) : Nat := natOfBits (bitsAt m pos n)

/-! ## The reading operations -/

/-- `read_bits(width)` for a width in range: the value and the new position, or `none` for `EndOfInput`, with
nothing consumed (R90, R91). `Ops.readBits` adds the width check. -/
def takeBits (m : Memory) (pos width : Nat) : Option (Nat × Nat) :=
  if 8 * m.size < pos + width then none else some (memRead m pos width, pos + width)

/-- `peek_bit()`: `none` is `EndOfInput`; nothing is consumed (R92). -/
def peekBitAt (m : Memory) (pos : Nat) : Option Bool :=
  if 8 * m.size ≤ pos then none else some (bitAt m pos)

/-- What `finish_read` returns (R93): return values, not exceptions (R85). -/
inductive PaddingCheck where
  | ok
  | paddingError
deriving DecidableEq, Repr

/-- `finish_read()`: every bit from `pos` to the end of the buffer must be zero (R93, R94). -/
def finishReadAt (m : Memory) (pos : Nat) : PaddingCheck :=
  if (bitsAt m pos (8 * m.size - pos)).any id then .paddingError else .ok

end Sys2Proof.Machine
end

