-- ==== Sys2Proof/Syntax.lean ====
section
/-! DEFINITION. The instructions of zerocrush CORE: the 29 patterns of `spec/opcode_table.json`
(`30_encoding.md` R64, R78). The operand of a data pattern is its suffix field `x`; control patterns and
Mode1 regular tiers have none (R66, R68). -/

namespace Sys2Proof

/-- One constructor per row of the opcode table; the comment gives the row's bits in stream order. -/
inductive Instr where
  /-- `Z0` = `1x`, length `1 + x` (R101). -/
  | z0 (x : BitVec 1)
  /-- `Z1` = `01xx`, length `3 + x` (R102). -/
  | z1 (x : BitVec 2)
  /-- `Z2` = `001xxx`, length `7 + x` (R103). -/
  | z2 (x : BitVec 3)
  /-- `Z3` = `0001xxxx`, length `15 + x` (R104). -/
  | z3 (x : BitVec 4)
  /-- `Z4` = `00001xxxxx`, length `31 + x` (R105). -/
  | z4 (x : BitVec 5)
  /-- `Z5` = `000001xxxxxx`, length `63 + x` (R106). -/
  | z5 (x : BitVec 6)
  /-- `Z6` = `0000001xxxxxxx`, length `127 + x` (R107). -/
  | z6 (x : BitVec 7)
  /-- `Z7` = `00000001xxxxxxxx`, length `255 + x` (R108). -/
  | z7 (x : BitVec 8)
  /-- `Z8` = `000000001xxxxxxxxx`, length `511 + x` (R109). -/
  | z8 (x : BitVec 9)
  /-- `Z9` = `0000000001xxxxxxxxxx`, length `1023 + x` (R110). -/
  | z9 (x : BitVec 10)
  /-- `Z10` = `00000000001xxxxxxxxxxx`, length `2047 + x` (R111). -/
  | z10 (x : BitVec 11)
  /-- `Z11` = `000000000001xxxxxxxxxxxx`, length `4095 + x` (R112). -/
  | z11 (x : BitVec 12)
  /-- `ZOV` = twelve zeros then `xxxxxxxxxxxx`, `x ≤ 4092`, length `8191 + x` (R113). -/
  | zov (x : BitVec 12)
  /-- `O1` = `1`, length 1 (R118). -/
  | o1
  /-- `O2` = `01`, length 2 (R119). -/
  | o2
  /-- `O3` = `001`, length 3 (R120). -/
  | o3
  /-- `O4` = `0001`, length 4 (R121). -/
  | o4
  /-- `O5` = `00001`, length 5 (R122). -/
  | o5
  /-- `O6` = `000001`, length 6 (R123). -/
  | o6
  /-- `O7` = `0000001`, length 7 (R124). -/
  | o7
  /-- `O8` = `00000001`, length 8 (R125). -/
  | o8
  /-- `O9` = `000000001`, length 9 (R126). -/
  | o9
  /-- `O10` = `0000000001`, length 10 (R127). -/
  | o10
  /-- `O11` = `00000000001`, length 11 (R128). -/
  | o11
  /-- `O12` = `000000000001`, length 12 (R129). -/
  | o12
  /-- `OOV` = twelve zeros then `xxxxxxxxxxxx`, `x ≤ 4092`, length `13 + x` (R130). -/
  | oov (x : BitVec 12)
  /-- `CONT` = `000000000000111111111101`, the continuation marker (R135). -/
  | cont
  /-- `MCHG` = `000000000000111111111110`, mode change (R136). -/
  | mchg
  /-- `TERM` = `000000000000111111111111`, termination (R137). -/
  | term
deriving DecidableEq, Repr

end Sys2Proof
end

