-- ==== Sys2Proof/WellFormed.lean ====
section
/-! DEFINITION. Which instruction terms stand for a pattern of the format. -/

namespace Sys2Proof

/-- An overflow suffix is data exactly when it is at most `OVF_XMAX`: the three larger values are the
control patterns, never data (R67, R73). Every other operand admits every value of its width (R72). -/
def Instr.wf : Instr → Bool
  | .zov x => x.toNat ≤ Config.ovfXmax
  | .oov x => x.toNat ≤ Config.ovfXmax
  | _ => true

end Sys2Proof
end

