-- ==== Sys2Proof/Decode.lean ====
section
/-! DEFINITION. The decoder (`ParsePattern`, `30_encoding.md` R75), the encoder of a pattern (R64 to R68,
R78), and the reading of one word of `spec/opcode_table.json`. -/

namespace Sys2Proof

open Machine (bin natOfBits takeBits Memory)

/-! ## Decoding -/

/-- What `ParsePattern` answers: a pattern and the bit address after it, or the one rejection there is, the
end of the buffer, with the position left after the last successful read (R75, R76, R77). -/
inductive Parse where
  | pattern (i : Instr) (pos : Nat)
  | endOfInput (pos : Nat)
deriving DecidableEq, Repr

/-- Count leading zeros one bit at a time (R75). `left` is how many more zeros may be read. The answer is the
count and the position after it, the terminating 1 consumed when the count is below 12; or the position at
which `EndOfInput` struck. -/
def countZeros (m : Memory) : (left z pos : Nat) → Except Nat (Nat × Nat)
  | 0, z, pos => .ok (z, pos)
  | left + 1, z, pos =>
    match takeBits m pos 1 with
    | none => .error pos
    | some (b, pos') => if b = 1 then .ok (z, pos') else countZeros m left (z + 1) pos'

/-- The Mode0 regular-tier pattern with `z` leading zeros and suffix `x` (R65, R76). -/
def zPattern (z : Fin 12) (x : Nat) : Instr :=
  match z with
  | 0 => .z0 (BitVec.ofNat 1 x)
  | 1 => .z1 (BitVec.ofNat 2 x)
  | 2 => .z2 (BitVec.ofNat 3 x)
  | 3 => .z3 (BitVec.ofNat 4 x)
  | 4 => .z4 (BitVec.ofNat 5 x)
  | 5 => .z5 (BitVec.ofNat 6 x)
  | 6 => .z6 (BitVec.ofNat 7 x)
  | 7 => .z7 (BitVec.ofNat 8 x)
  | 8 => .z8 (BitVec.ofNat 9 x)
  | 9 => .z9 (BitVec.ofNat 10 x)
  | 10 => .z10 (BitVec.ofNat 11 x)
  | 11 => .z11 (BitVec.ofNat 12 x)

/-- The Mode1 regular-tier pattern with `z` leading zeros: tier `z + 1` (R66, R74). -/
def oPattern (z : Fin 12) : Instr :=
  match z with
  | 0 => .o1
  | 1 => .o2
  | 2 => .o3
  | 3 => .o4
  | 4 => .o5
  | 5 => .o6
  | 6 => .o7
  | 7 => .o8
  | 8 => .o9
  | 9 => .o10
  | 10 => .o11
  | 11 => .o12

/-- The pattern with twelve leading zeros and suffix `x`: one of the three control patterns, the same in both
tables, or the overflow tier of the table (R67, R68, R75). -/
def overflowPattern (tbl : Mode) (x : Nat) : Instr :=
  if x = Config.sufCont then .cont
  else if x = Config.sufMchg then .mchg
  else if x = Config.sufTerm then .term
  else match tbl with
    | .mode0 => .zov (BitVec.ofNat 12 x)
    | .mode1 => .oov (BitVec.ofNat 12 x)

/-- `ParsePattern(tbl)` at bit address `pos` (R75). Total on every buffer: no bit string is illegal (R77). -/
def decode (tbl : Mode) (m : Memory) (pos : Nat) : Parse :=
  match countZeros m Config.zMax 0 pos with
  | .error p => .endOfInput p
  | .ok (z, p) =>
    if h : z < 12 then
      match tbl with
      | .mode0 =>
        match takeBits m p (z + 1) with
        | none => .endOfInput p
        | some (x, p') => .pattern (zPattern ⟨z, h⟩ x) p'
      | .mode1 => .pattern (oPattern ⟨z, h⟩) p
    else
      match takeBits m p Config.ovfW with
      | none => .endOfInput p
      | some (x, p') => .pattern (overflowPattern tbl x) p'

/-! ## Encoding -/

/-- Format `Z`: `k` zeros, a 1, and the `k+1`-bit suffix (R65). -/
def zBits (k x : Nat) : Bits := List.replicate k false ++ true :: bin (k + 1) x

/-- Format `O`: `k - 1` zeros and a 1 (R66). -/
def oBits (k : Nat) : Bits := List.replicate (k - 1) false ++ [true]

/-- Formats `V` and `C`: twelve zeros and a 12-bit suffix (R67, R68). -/
def overflowBits (x : Nat) : Bits := List.replicate Config.zMax false ++ bin Config.ovfW x

/-- The bits of a pattern in stream order (R64 to R68, R78). -/
def encode : Instr → Bits
  | .z0 x => zBits 0 x.toNat
  | .z1 x => zBits 1 x.toNat
  | .z2 x => zBits 2 x.toNat
  | .z3 x => zBits 3 x.toNat
  | .z4 x => zBits 4 x.toNat
  | .z5 x => zBits 5 x.toNat
  | .z6 x => zBits 6 x.toNat
  | .z7 x => zBits 7 x.toNat
  | .z8 x => zBits 8 x.toNat
  | .z9 x => zBits 9 x.toNat
  | .z10 x => zBits 10 x.toNat
  | .z11 x => zBits 11 x.toNat
  | .zov x => overflowBits x.toNat
  | .o1 => oBits 1
  | .o2 => oBits 2
  | .o3 => oBits 3
  | .o4 => oBits 4
  | .o5 => oBits 5
  | .o6 => oBits 6
  | .o7 => oBits 7
  | .o8 => oBits 8
  | .o9 => oBits 9
  | .o10 => oBits 10
  | .o11 => oBits 11
  | .o12 => oBits 12
  | .oov x => overflowBits x.toNat
  | .cont => overflowBits Config.sufCont
  | .mchg => overflowBits Config.sufMchg
  | .term => overflowBits Config.sufTerm

/-- The table a pattern belongs to; `none` for the control patterns, which stand in both (R64, R78). -/
def Instr.table : Instr → Option Mode
  | .z0 _ | .z1 _ | .z2 _ | .z3 _ | .z4 _ | .z5 _ | .z6 _ | .z7 _ | .z8 _ | .z9 _ | .z10 _ | .z11 _ | .zov _ => some .mode0
  | .o1 | .o2 | .o3 | .o4 | .o5 | .o6 | .o7 | .o8 | .o9 | .o10 | .o11 | .o12 | .oov _ => some .mode1
  | .cont | .mchg | .term => none

/-- Whether a pattern is recognised in a table. -/
def Instr.inTable (i : Instr) (tbl : Mode) : Bool :=
  match i.table with
  | some t => t == tbl
  | none => true

/-! ## Words of the opcode table

A row's `match` and `mask` number the pattern's own `length` bits, the first bit read most significant, so
bit 0 of a table word is the LAST bit of the pattern. The pattern's length and table are not in the word
(R69); they are found here from the word and the row's size in bits, exact or rounded up to whole bytes.
Rows that share word and size cannot be told apart, and which row is meant is the model's choice (DESIGN CHOICE,
log entry 9): `O1` to `O8` (word 1, one byte), `O9` to `O12` (word 1, two bytes), `ZOV` and `OOV`, and in three bytes
an overflow or control word `0x200 .. 0xFFF` and a `Z8`, `Z9` or `Z10` rounded up. -/

/-- The size `nbits` fits a pattern of `len` bits: exactly, or rounded up to whole bytes. -/
def sizeFits (len nbits : Nat) : Bool := len == nbits || (len + 7) / 8 * 8 == nbits

/-- The table and the length of the row a table word belongs to, if it belongs to one. The order of the tests is
DESIGN CHOICE (log entry 9), the spec giving none: first a control word, so `0xFFD .. 0xFFF` in 24 bits is no `Z10`;
then a word whose leading 1 is the terminating 1 of a `Z` row, so `0x200 .. 0xFFC` in 24 bits is a `Z8`, `Z9` or
`Z10` and no overflow word; then the word 1 of an `O` row, the longest that fits; then an overflow word, read in
Mode0's table. -/
def tableForm (nbits w : Nat) : Option (Mode × Nat) :=
  let k := Nat.log2 w - 1
  if nbits = 24 ∧ Config.sufCont ≤ w ∧ w ≤ Config.sufTerm then some (.mode0, 24)
  else if 2 ≤ w ∧ k < 12 ∧ sizeFits (2 * k + 2) nbits then some (.mode0, 2 * k + 2)
  else if w = 1 ∧ 1 ≤ nbits ∧ nbits ≤ 12 then some (.mode1, nbits)
  else if w = 1 ∧ nbits = 16 then some (.mode1, 12)
  else if nbits = 24 ∧ w < 2 ^ Config.ovfW then some (.mode0, 24)
  else none

/-- A pattern of `len` bits given as a number, stored from bit address 0 up, every bit after it zero up to the
longest pattern: three bytes (R48). -/
def wordImage (len w : Nat) : Memory :=
  Memory.ofBytes (Machine.packBytes (bin 24 (w % 2 ^ len * 2 ^ (24 - len))))

/-- The instruction the decoder reads from a word of the opcode table. -/
def decodeTableWord (nbits w : Nat) : Option Instr :=
  match tableForm nbits w with
  | none => none
  | some (tbl, len) =>
    match decode tbl (wordImage len w) 0 with
    | .pattern i p => if p = len then some i else none
    | .endOfInput _ => none

end Sys2Proof
end

