-- ==== Sys2Proof/Machine/State.lean ====
section
/-! DEFINITION. The whole state of zerocrush CORE (`10_state.md` R20 to R45), the reasons a step can stop, and
the machine after reset. -/

namespace Sys2Proof.Machine

/-- `ENC.phase` (R31, R43). -/
inductive Phase where
  | idle
  | run
  | done
deriving DecidableEq, Repr

/-- `DEC.status` (R34, R43). `ok`, `truncated` and `padding` are terminal. -/
inductive Status where
  | idle
  | run
  | ok
  | truncated
  | padding
deriving DecidableEq, Repr

/-- The two exceptions of DEC (R185). -/
inductive Cause where
  | truncatedStream
  | paddingError
deriving DecidableEq, Repr

/-- A token of the channel `enc_in` (R37). -/
inductive Token where
  /-- `BIT(b)`. -/
  | bit (b : Bool)
  /-- `END`. -/
  | endToken
deriving DecidableEq, Repr

/-- One entry of the caller's script: what reaches the CORE next (R36, R37, R39, R205), or a turn given to DEC,
so that a script expresses every interleaving of the two agents (R22, R58). Log entry 2. -/
inductive Input where
  /-- The hardware reset line (R205). -/
  | reset
  /-- The command `enc_start` (R37, R207). -/
  | encStart
  /-- A token on `enc_in`; ENC consumes it in this step (R37, R143, R144). -/
  | token (t : Token)
  /-- The command `dec_start(in, strict)` (R39, R207). -/
  | decStart (buf : List Byte) (strict : Bool)
  /-- DEC is the agent that moves. -/
  | decTurn
  /-- The caller overwrites its buffer (R214, V5). -/
  | changeBuffer (buf : List Byte)
deriving DecidableEq, Repr

/-- The write sequencer BSW, with the byte channel it appends to (R25, R26, R38). -/
structure Bsw where
  /-- `BSW.acc`: the bits written since the last byte boundary, oldest highest, zero above (R25). -/
  acc : BitVec 8
  /-- `BSW.cnt`: how many bits `acc` holds (R25). -/
  cnt : BitVec 3
  /-- `BSW.fin`: set by `finish_write` (R26). -/
  fin : Bool
  /-- `ENC.out`: the bytes emitted so far on `enc_out` (R26, R38). -/
  out : List Byte
deriving DecidableEq, Repr

/-- The Run Encoder ENC (R29 to R31). -/
structure Enc where
  /-- `ENC.mode`: the active mode (R29). -/
  mode : Mode
  /-- `ENC.have`: a run is being accumulated (R30). -/
  haveRun : Bool
  /-- `ENC.val`: the bit value of that run (R30). -/
  val : Bool
  /-- `ENC.len`: the length of that run so far, an unbounded natural (R11, R30). -/
  len : Nat
  /-- `ENC.phase` (R31). -/
  phase : Phase
  /-- ENC's private write sequencer (R20). -/
  bsw : Bsw
deriving DecidableEq, Repr

/-- The read sequencer BSR with the buffer it reads (R27, R28). -/
structure Bsr where
  /-- `DEC.in`: the buffer of the current call; `none` before the first `dec_start` (R27, R45). -/
  buf : Option Memory
  /-- `BSR.r_pos`: the bit address of the next unread bit, the program counter (R28). -/
  rPos : Nat
deriving DecidableEq, Repr

/-- The Run Decoder DEC (R32 to R35). -/
structure Dec where
  /-- `DEC.mode`: the active mode (R32). -/
  mode : Mode
  /-- `DEC.run_mode`: the mode of the most recent ordinary symbol (R32). -/
  runMode : Mode
  /-- `DEC.hold`: set between a `CONT` marker and its value pattern (R32). -/
  hold : Bool
  /-- `DEC.strict` (R33). -/
  strict : Bool
  /-- `DEC.status` (R34). -/
  status : Status
  /-- `DEC.pad_nz`: padding validation found a non-zero bit (R34). -/
  padNz : Bool
  /-- `DEC.out`: the bits emitted so far on `dec_out` (R35). -/
  out : Bits
  /-- DEC's private read sequencer (R20). -/
  bsr : Bsr
deriving DecidableEq, Repr

/-- The state of the CORE: two units that share nothing (R22), and the caller's remaining script, which is the
model's own field and no register (log entry 2). -/
structure State where
  enc : Enc
  dec : Dec
  inputs : List Input
deriving DecidableEq, Repr

/-- Why the machine stops with a fault. -/
inductive Fault where
  /-- Raised by `decTurn` when DEC is to move and its status is not RUN: DEC has no step there (R162) and no
  caller input is left. Safe: the spec gives no successor either. Log entry 3. -/
  | noStep
deriving DecidableEq, Repr

/-- Why a step is refused: what the spec itself refuses, giving no successor state. All are safe. -/
inductive Refusal where
  /-- Raised by `exec` for an instruction without a meaning; no arm raises it. Safe. -/
  | notModelled (mnemonic : String)
  /-- Raised by `encToken`: a token while `ENC.phase` is not RUN (R142, V2). Safe. -/
  | tokenOutsideRun
  /-- Raised by `encStart`: `enc_start` while `ENC.phase` is RUN (R207, V4). Safe. -/
  | encStartInRun
  /-- Raised by `decStart`: `dec_start` while `DEC.status` is RUN (R207, V4). Safe. -/
  | decStartInRun
  /-- Raised by `changeBuffer`: the caller changes the buffer of a call in progress (R214, V5). Safe. -/
  | bufferChangedInRun
  /-- Raised by `writeBits` and `finishWrite` after `finish_write` (R89, U2); no run reaches it. Safe. -/
  | writeAfterFinish
  /-- Raised by `writeBits` and `readBits` for a width over 24 (R86, R90, V1); no run reaches it. Safe. -/
  | widthOver24
  /-- Raised by `emitLen`: `EncodeLen` of 0 or of more than `MAX` is undefined (R81); no run reaches it. Safe.
  Log entry 8. -/
  | noPattern
deriving DecidableEq, Repr

/-- BSW at reset and at `enc_start` (R25, R26, R45). -/
def Bsw.reset : Bsw := { acc := 0, cnt := 0, fin := false, out := [] }

/-- ENC at reset (R45, R205). -/
def Enc.reset : Enc :=
  { mode := Config.initMode, haveRun := false, val := false, len := 0, phase := .idle, bsw := Bsw.reset }

/-- DEC at reset (R45, R205). -/
def Dec.reset : Dec :=
  { mode := Config.initMode, runMode := .mode0, hold := false, strict := true, status := .idle, padNz := false,
    out := [], bsr := { buf := none, rPos := 0 } }

/-- The machine after hardware reset (R45, R205), with no caller action pending. -/
def State.reset : State := { enc := Enc.reset, dec := Dec.reset, inputs := [] }

end Sys2Proof.Machine
end

