-- ==== Sys2Proof/Machine/Flags.lean ====
section
/-! DEFINITION. The flag-like state of `10_state.md` R42 and the numeric codes of `60_exceptions.md` R187. The
CORE has no arithmetic condition codes (R42). `BSW.fin` is set by `finishWrite`, `ENC.have` by `encBit`. -/

namespace Sys2Proof.Machine

/-- `DEC.hold <- 1` (R169). -/
def Dec.setHold (d : Dec) : Dec := { d with hold := true }

/-- `DEC.mode <- other(DEC.mode)` (R168). -/
def Dec.flipMode (d : Dec) : Dec := { d with mode := d.mode.other }

/-- The end of a call: the status and the flag `DEC.pad_nz` (R173, R193). -/
def Dec.finish (d : Dec) (st : Status) (nz : Bool) : Dec := { d with status := st, padNz := nz }

/-- The statuses that only a new start or a reset leaves (R34, R162). -/
def Status.terminal : Status → Bool
  | .ok | .truncated | .padding => true
  | .idle | .run => false

/-- The code of `DEC.status` (R43, R187). -/
def Status.code : Status → BitVec 3
  | .idle => 0
  | .run => 1
  | .ok => 2
  | .truncated => 3
  | .padding => 4

/-- The code of `ENC.phase` (R43, R187). -/
def Phase.code : Phase → BitVec 2
  | .idle => 0
  | .run => 1
  | .done => 2

/-- The exception cause code; no error is 0 (R187). -/
def Cause.code : Option Cause → Nat
  | none => 0
  | some .truncatedStream => 1
  | some .paddingError => 2

/-- What the caller can read: the four visible registers and the two output channels (R38, R40, R43). -/
structure CallerView where
  strict : Bool
  status : Status
  padNz : Bool
  phase : Phase
  encOut : List Byte
  decOut : Bits
deriving DecidableEq, Repr

/-- The caller's view of a state; every other register is internal (R43). -/
def callerView (s : State) : CallerView :=
  { strict := s.dec.strict, status := s.dec.status, padNz := s.dec.padNz, phase := s.enc.phase,
    encOut := s.enc.bsw.out, decOut := s.dec.out }

end Sys2Proof.Machine
end

