-- ==== Sys2Proof/Machine/Operands.lean ====
section
/-! DEFINITION. The table that reads the next pattern, the run length a pattern carries, and the inverse map
`EncodeLen` (`30_encoding.md` R69 to R74, R81; `41_code_table_mode0.md` R114; `42_code_table_mode1.md` R131). -/

namespace Sys2Proof.Machine

/-- Table selection: `run_mode` for the value pattern of a continuation symbol, else `mode` (R69, R163). -/
def tableOf (d : Dec) : Mode := if d.hold then d.runMode else d.mode

/-! ## The value of a data pattern -/

/-- Mode0 tier `k`: `2^(k+1) − 1 + x` (R72). -/
def zLen (k x : Nat) : Nat := 2 ^ (k + 1) - 1 + x

/-- Mode1 tier `k`: the value `k` (R74). -/
def oLen (k : Nat) : Nat := k

/-- The overflow tier: `OVF_MIN[tbl] + x` (R71). -/
def ovfLen (tbl : Mode) (x : Nat) : Nat := Config.ovfMin tbl + x

/-- `n` where `ParsePattern` returns `DATA(n)` for the pattern; `none` for a control pattern (R75, R78). -/
def dataLen : Instr → Option Nat
  | .z0 x => some (zLen 0 x.toNat)
  | .z1 x => some (zLen 1 x.toNat)
  | .z2 x => some (zLen 2 x.toNat)
  | .z3 x => some (zLen 3 x.toNat)
  | .z4 x => some (zLen 4 x.toNat)
  | .z5 x => some (zLen 5 x.toNat)
  | .z6 x => some (zLen 6 x.toNat)
  | .z7 x => some (zLen 7 x.toNat)
  | .z8 x => some (zLen 8 x.toNat)
  | .z9 x => some (zLen 9 x.toNat)
  | .z10 x => some (zLen 10 x.toNat)
  | .z11 x => some (zLen 11 x.toNat)
  | .zov x => some (ovfLen .mode0 x.toNat)
  | .o1 => some (oLen 1)
  | .o2 => some (oLen 2)
  | .o3 => some (oLen 3)
  | .o4 => some (oLen 4)
  | .o5 => some (oLen 5)
  | .o6 => some (oLen 6)
  | .o7 => some (oLen 7)
  | .o8 => some (oLen 8)
  | .o9 => some (oLen 9)
  | .o10 => some (oLen 10)
  | .o11 => some (oLen 11)
  | .o12 => some (oLen 12)
  | .oov x => some (ovfLen .mode1 x.toNat)
  | .cont | .mchg | .term => none

/-! ## Encoder-side selection -/

/-- The unique Mode0 tier whose range `[2^(k+1) − 1, 2^(k+2) − 2]` holds `n` (R114). -/
def tierOf (n : Nat) : Option Nat :=
  (List.range 12).find? fun k => decide (2 ^ (k + 1) - 1 ≤ n) && decide (n ≤ 2 ^ (k + 2) - 2)

/-- `EncodeLen(tbl, n)`: the bits of the one data pattern of the table whose value is `n`; `none` where it is
undefined, for `n = 0` and `n > MAX[tbl]` (R81, R114, R131). -/
def encodeLen (tbl : Mode) (n : Nat) : Option Bits :=
  if n = 0 ∨ Config.maxLen tbl < n then none
  else if Config.ovfMin tbl ≤ n then some (overflowBits (n - Config.ovfMin tbl))
  else match tbl with
    | .mode0 => (tierOf n).map fun k => zBits k (n - (2 ^ (k + 1) - 1))
    | .mode1 => some (oBits n)

end Sys2Proof.Machine
end

