-- ==== Sys2Proof/Machine/Ops.lean ====
section
/-! DEFINITION. The shared operations: the Bit Sequencer on registers, fetching a pattern, executing data, the
taking of an exception, and the starts that leave a terminal status. -/

namespace Sys2Proof.Machine

/-- The three outcomes of a step of this machine. -/
abbrev Result := Host.Outcome State Fault Refusal

/-! ## The write half of the Bit Sequencer (`40_bit_sequencer.md` R86 to R89) -/

/-- One turn of the loop of R86: shift the bit in; the eighth bit completes a byte. -/
def Bsw.putBit (b : Bsw) (v : Bool) : Bsw :=
  let acc := (b.acc <<< 1) ||| (BitVec.ofBool v).setWidth 8
  if b.cnt = 7 then { b with acc := 0, cnt := 0, out := b.out ++ [acc] }
  else { b with acc := acc, cnt := b.cnt + 1 }

/-- The bits `v[w-1] .. v[0]`, in this order (R86). -/
def Bsw.putBits (v : Nat) : (w : Nat) → Bsw → Bsw
  | 0, b => b
  | w + 1, b => Bsw.putBits v w (b.putBit (v.testBit w))

/-- `write_bits(value, width)` (R86); refused over 24 bits and after `finish_write` (R89, V1, U2). -/
def writeBits (value width : Nat) (b : Bsw) : Except Refusal Bsw :=
  if Config.symMaxBits < width then .error .widthOver24
  else if b.fin then .error .writeAfterFinish
  else .ok (b.putBits value width)

/-- `finish_write()` (R88); refused when called again (R89, U2). -/
def finishWrite (b : Bsw) : Except Refusal Bsw :=
  if b.fin then .error .writeAfterFinish
  else if b.cnt = 0 then .ok { b with fin := true }
  else .ok { acc := 0, cnt := 0, fin := true, out := b.out ++ [b.acc <<< (8 - b.cnt.toNat)] }

/-! ## The read half of the Bit Sequencer (`40_bit_sequencer.md` R90 to R96) -/

/-- The buffer of the call. In RUN there is one; without one there are no bytes (log entry 5). -/
def Bsr.mem (r : Bsr) : Memory := r.buf.getD []

/-- What `read_bits` returns, bits or `EndOfInput`, and the sequencer after it (R90, R91). -/
inductive ReadResult where
  | bits (v : Nat) (r : Bsr)
  | endOfInput (r : Bsr)
deriving DecidableEq, Repr

/-- `read_bits(width)` (R90, R91); refused over 24 bits (V1). On `EndOfInput` nothing is consumed. -/
def readBits (width : Nat) (r : Bsr) : Except Refusal ReadResult :=
  if Config.symMaxBits < width then .error .widthOver24
  else match takeBits r.mem r.rPos width with
    | none => .ok (.endOfInput r)
    | some (v, p) => .ok (.bits v { r with rPos := p })

/-- `peek_bit()`; `none` is `EndOfInput` (R92). The reference parse does not use it (R75, R217). -/
def peekBit (r : Bsr) : Option Bool := peekBitAt r.mem r.rPos

/-- `finish_read()` (R93, R94). -/
def finishRead (r : Bsr) : PaddingCheck := finishReadAt r.mem r.rPos

/-! ## Fetching a pattern -/

/-- `BSR.r_pos <- p` (R28). -/
def State.seek (s : State) (p : Nat) : State :=
  { s with dec := { s.dec with bsr := { s.dec.bsr with rPos := p } } }

/-- `DEC` replaced, all else kept. -/
def State.withDec (s : State) (d : Dec) : State := { s with dec := d }

/-- `ENC` replaced, all else kept. -/
def State.withEnc (s : State) (e : Enc) : State := { s with enc := e }

/-- The caller's script replaced, all else kept. -/
def State.withInputs (s : State) (l : List Input) : State := { s with inputs := l }

/-- What a fetch gives: a pattern, `r_pos` just after it, or the end of the buffer, `r_pos` after the last
successful read (R75, R76). -/
inductive Fetched where
  | pattern (i : Instr) (s : State)
  | endOfInput (s : State)
deriving DecidableEq, Repr

/-- Parse one pattern at `BSR.r_pos` in the table of R163. -/
def fetch (s : State) : Fetched :=
  match decode (tableOf s.dec) s.dec.bsr.mem s.dec.bsr.rPos with
  | .pattern i p => .pattern i (s.seek p)
  | .endOfInput p => .endOfInput (s.seek p)

/-- A word of the opcode table placed where DEC fetches next: the call's buffer holds it from bit address 0, the
row's table is selected, DEC is in RUN and moves next. Log entry 9. -/
def placeWord (nbits w : Nat) (s : State) : State :=
  let form := (tableForm nbits w).getD (Config.initMode, nbits)
  { s with
    inputs := []
    dec := { s.dec with
      mode := form.1
      hold := false
      status := .run
      bsr := { buf := some (wordImage form.2 w), rPos := 0 } } }

/-! ## Executing data (`45_run_decoder.md` R165 to R167) -/

/-- An ordinary symbol of length `n` (R166). -/
def Dec.ordinary (d : Dec) (n : Nat) : Dec :=
  { d with out := d.out ++ List.replicate n d.mode.bit, runMode := d.mode, mode := d.mode.other }

/-- The value pattern of a continuation symbol, of length `n` (R167). -/
def Dec.continued (d : Dec) (n : Nat) : Dec :=
  { d with out := d.out ++ List.replicate n d.runMode.bit, hold := false }

/-- `ExecData(n)` on DEC (R165). -/
def Dec.data (d : Dec) (n : Nat) : Dec := if d.hold then d.continued n else d.ordinary n

/-- `ExecData(n)` (R165), the same for regular and overflow tiers. -/
def execData (n : Nat) (s : State) : Result := .next (s.withDec (s.dec.data n))

/-! ## Taking an exception, and what follows one (`60_exceptions.md` R192 to R195) -/

/-- Trap entry (R193): the status names the cause, `PaddingError` also sets `pad_nz`; nothing else is saved or
changed, and control goes nowhere, since DEC has no step in a terminal status (R162). -/
def raise (c : Cause) (s : State) : State :=
  match c with
  | .truncatedStream => s.withDec (s.dec.finish .truncated s.dec.padNz)
  | .paddingError => s.withDec (s.dec.finish .padding true)

/-- `Terminate()`: padding validation and the terminal status (R170, R172, R173). -/
def terminate (s : State) : State :=
  match finishRead s.dec.bsr with
  | .ok => s.withDec (s.dec.finish .ok false)
  | .paddingError => if s.dec.strict then raise .paddingError s else s.withDec (s.dec.finish .ok true)

/-- DEC as `dec_start(in, strict)` leaves it (R207). -/
def Dec.started (buf : List Byte) (strict : Bool) : Dec :=
  { Dec.reset with strict := strict, status := .run, bsr := { buf := some (Memory.ofBytes buf), rPos := 0 } }

/-- `dec_start(in, strict)` (R207). There is no return from an exception: a fresh call is the only way out of a
terminal status, and nothing of the trapped call is restored (R195). Refused in RUN (V4). -/
def decStart (buf : List Byte) (strict : Bool) (s : State) : Result :=
  if s.dec.status = .run then .refused .decStartInRun else .next (s.withDec (Dec.started buf strict))

/-- ENC as `enc_start` leaves it (R207). -/
def Enc.started : Enc := { Enc.reset with phase := .run }

/-- `enc_start` (R207). Refused in RUN (V4). -/
def encStart (s : State) : Result :=
  if s.enc.phase = .run then .refused .encStartInRun else .next (s.withEnc Enc.started)

/-- The hardware reset (R205): every register at its reset value; the caller's script is no register. -/
def hardwareReset (s : State) : State := State.reset.withInputs s.inputs

/-- The caller overwrites its buffer: no meaning during a decode call, no effect on the CORE otherwise
(R214, V5). -/
def changeBuffer (s : State) : Result :=
  if s.dec.status = .run then .refused .bufferChangedInRun else .next s

end Sys2Proof.Machine
end

