-- ==== Sys2Proof/Machine/Control.lean ====
section
/-! DEFINITION. The meanings of the control patterns (`43_control_symbols.md`). -/

namespace Sys2Proof.Machine

/-- `CONT`: `DEC.hold <- 1`, nothing else (R135, R169). -/
def execCONT (s : State) : Result := .next (s.withDec s.dec.setHold)

/-- `MCHG`: `DEC.mode <- other(DEC.mode)`, nothing else (R136, R168). -/
def execMCHG (s : State) : Result := .next (s.withDec s.dec.flipMode)

/-- `TERM`: leave the symbol loop with padding validation (R137, R170). -/
def execTERM (s : State) : Result := .next (terminate s)

end Sys2Proof.Machine
end

