-- ==== Sys2Proof/Machine/TableMode0.lean ====
section
/-! DEFINITION. The meanings of the Mode0 patterns (`41_code_table_mode0.md`). Each is `ExecData` of the
pattern's run length, in the registers `hold`, `mode` and `run_mode` select (R165); the fetch has advanced
`r_pos` past the pattern (R76). -/

namespace Sys2Proof.Machine

/-- `Z0`: length `1 + x` (R101). -/
def execZ0 (x : BitVec 1) (s : State) : Result := execData (zLen 0 x.toNat) s

/-- `Z1`: length `3 + x` (R102). -/
def execZ1 (x : BitVec 2) (s : State) : Result := execData (zLen 1 x.toNat) s

/-- `Z2`: length `7 + x` (R103). -/
def execZ2 (x : BitVec 3) (s : State) : Result := execData (zLen 2 x.toNat) s

/-- `Z3`: length `15 + x` (R104). -/
def execZ3 (x : BitVec 4) (s : State) : Result := execData (zLen 3 x.toNat) s

/-- `Z4`: length `31 + x` (R105). -/
def execZ4 (x : BitVec 5) (s : State) : Result := execData (zLen 4 x.toNat) s

/-- `Z5`: length `63 + x` (R106). -/
def execZ5 (x : BitVec 6) (s : State) : Result := execData (zLen 5 x.toNat) s

/-- `Z6`: length `127 + x` (R107). -/
def execZ6 (x : BitVec 7) (s : State) : Result := execData (zLen 6 x.toNat) s

/-- `Z7`: length `255 + x` (R108). -/
def execZ7 (x : BitVec 8) (s : State) : Result := execData (zLen 7 x.toNat) s

/-- `Z8`: length `511 + x` (R109). -/
def execZ8 (x : BitVec 9) (s : State) : Result := execData (zLen 8 x.toNat) s

/-- `Z9`: length `1023 + x` (R110). -/
def execZ9 (x : BitVec 10) (s : State) : Result := execData (zLen 9 x.toNat) s

/-- `Z10`: length `2047 + x` (R111). -/
def execZ10 (x : BitVec 11) (s : State) : Result := execData (zLen 10 x.toNat) s

/-- `Z11`: length `4095 + x` (R112). -/
def execZ11 (x : BitVec 12) (s : State) : Result := execData (zLen 11 x.toNat) s

/-- `ZOV`: length `8191 + x` (R113). -/
def execZOV (x : BitVec 12) (s : State) : Result := execData (ovfLen .mode0 x.toNat) s

end Sys2Proof.Machine
end

