-- ==== Sys2Proof/Machine/TableMode1.lean ====
section
/-! DEFINITION. The meanings of the Mode1 patterns (`42_code_table_mode1.md`). Each is `ExecData` of the
pattern's run length (R165); the fetch has advanced `r_pos` past the pattern (R76). -/

namespace Sys2Proof.Machine

/-- `O1`: length 1 (R118). -/
def execO1 (s : State) : Result := execData (oLen 1) s

/-- `O2`: length 2 (R119). -/
def execO2 (s : State) : Result := execData (oLen 2) s

/-- `O3`: length 3 (R120). -/
def execO3 (s : State) : Result := execData (oLen 3) s

/-- `O4`: length 4 (R121). -/
def execO4 (s : State) : Result := execData (oLen 4) s

/-- `O5`: length 5 (R122). -/
def execO5 (s : State) : Result := execData (oLen 5) s

/-- `O6`: length 6 (R123). -/
def execO6 (s : State) : Result := execData (oLen 6) s

/-- `O7`: length 7 (R124). -/
def execO7 (s : State) : Result := execData (oLen 7) s

/-- `O8`: length 8 (R125). -/
def execO8 (s : State) : Result := execData (oLen 8) s

/-- `O9`: length 9 (R126). -/
def execO9 (s : State) : Result := execData (oLen 9) s

/-- `O10`: length 10 (R127). -/
def execO10 (s : State) : Result := execData (oLen 10) s

/-- `O11`: length 11 (R128). -/
def execO11 (s : State) : Result := execData (oLen 11) s

/-- `O12`: length 12 (R129). -/
def execO12 (s : State) : Result := execData (oLen 12) s

/-- `OOV`: length `13 + x` (R130). -/
def execOOV (x : BitVec 12) (s : State) : Result := execData (ovfLen .mode1 x.toNat) s

end Sys2Proof.Machine
end

