-- ==== Sys2Proof/Machine/Dispatch.lean ====
section
/-! DEFINITION. The dispatch: one arm per instruction. -/

namespace Sys2Proof.Machine

def exec (i : Instr) (s : State) : Host.Outcome State Fault Refusal :=
  match i with
  | .z0 x => Sys2Proof.Machine.execZ0 x s
  | .z1 x => Sys2Proof.Machine.execZ1 x s
  | .z2 x => Sys2Proof.Machine.execZ2 x s
  | .z3 x => Sys2Proof.Machine.execZ3 x s
  | .z4 x => Sys2Proof.Machine.execZ4 x s
  | .z5 x => Sys2Proof.Machine.execZ5 x s
  | .z6 x => Sys2Proof.Machine.execZ6 x s
  | .z7 x => Sys2Proof.Machine.execZ7 x s
  | .z8 x => Sys2Proof.Machine.execZ8 x s
  | .z9 x => Sys2Proof.Machine.execZ9 x s
  | .z10 x => Sys2Proof.Machine.execZ10 x s
  | .z11 x => Sys2Proof.Machine.execZ11 x s
  | .zov x => Sys2Proof.Machine.execZOV x s
  | .o1 => Sys2Proof.Machine.execO1 s
  | .o2 => Sys2Proof.Machine.execO2 s
  | .o3 => Sys2Proof.Machine.execO3 s
  | .o4 => Sys2Proof.Machine.execO4 s
  | .o5 => Sys2Proof.Machine.execO5 s
  | .o6 => Sys2Proof.Machine.execO6 s
  | .o7 => Sys2Proof.Machine.execO7 s
  | .o8 => Sys2Proof.Machine.execO8 s
  | .o9 => Sys2Proof.Machine.execO9 s
  | .o10 => Sys2Proof.Machine.execO10 s
  | .o11 => Sys2Proof.Machine.execO11 s
  | .o12 => Sys2Proof.Machine.execO12 s
  | .oov x => Sys2Proof.Machine.execOOV x s
  | .cont => Sys2Proof.Machine.execCONT s
  | .mchg => Sys2Proof.Machine.execMCHG s
  | .term => Sys2Proof.Machine.execTERM s

end Sys2Proof.Machine
end

