-- ==== Sys2Proof/Machine/Encoder.lean ====
section
/-! DEFINITION. The Run Encoder ENC (`44_run_encoder.md` R140 to R151). -/

namespace Sys2Proof.Machine

/-- A symbol (R17, R84): `ORD(m, n)`, `CONTV(m, n)`, the mode change, the termination. -/
inductive Symbol where
  | ordinary (m : Mode) (n : Nat)
  | continuation (m : Mode) (n : Nat)
  | modeChange
  | termination
deriving DecidableEq, Repr

/-- The lengths into which the loop of R145 cuts a run: `MAX[m]` while the rest exceeds it, then the rest. The
first is the ordinary symbol's. `fuel` bounds the loop; `L` turns are enough (R154). -/
def pieces (m : Mode) : (fuel L : Nat) → List Nat
  | 0, L => [L]
  | fuel + 1, L =>
    if L ≤ Config.maxLen m then [L] else Config.maxLen m :: pieces m fuel (L - Config.maxLen m)

/-- `RUN(v, n)`: one ordinary symbol, then continuation symbols, all in the run's own table (R84, R147). -/
def runSymbols (v : Bool) (n : Nat) : List Symbol :=
  match pieces (Mode.ofBit v) n n with
  | [] => []
  | a :: rest => .ordinary (Mode.ofBit v) a :: rest.map (.continuation (Mode.ofBit v))

/-- What `EmitRun(v, n)` writes: a mode change first when the run's mode is not `active` (R145, R146). -/
def emitRunSymbols (active : Mode) (v : Bool) (n : Nat) : List Symbol :=
  (if Mode.ofBit v = active then [] else [.modeChange]) ++ runSymbols v n

/-- `Emit(p)`: one pattern through `write_bits` (R87). -/
def emit (p : Bits) (b : Bsw) : Except Refusal Bsw := writeBits (natOfBits p) p.length b

/-- `Emit(EncodeLen(m, n))`. -/
def emitLen (m : Mode) (n : Nat) (b : Bsw) : Except Refusal Bsw :=
  match encodeLen m n with
  | some p => emit p b
  | none => .error .noPattern

/-- One symbol: one pattern, or for a continuation symbol the marker and its value pattern (R70, R145). -/
def emitSymbol (y : Symbol) (b : Bsw) : Except Refusal Bsw :=
  match y with
  | .ordinary m n => emitLen m n b
  | .continuation m n =>
    match emit (encode .cont) b with
    | .ok b' => emitLen m n b'
    | .error r => .error r
  | .modeChange => emit (encode .mchg) b
  | .termination => emit (encode .term) b

/-- Symbols one after the other. -/
def emitSymbols : List Symbol → Bsw → Except Refusal Bsw
  | [], b => .ok b
  | y :: ys, b =>
    match emitSymbol y b with
    | .ok b' => emitSymbols ys b'
    | .error r => .error r

/-- `EmitRun(v, n)` (R145 to R148): afterwards `ENC.mode = other(mode(v))`, split or not. -/
def emitRun (v : Bool) (n : Nat) (e : Enc) : Except Refusal Enc :=
  match emitSymbols (emitRunSymbols e.mode v n) e.bsw with
  | .ok b => .ok { e with bsw := b, mode := (Mode.ofBit v).other }
  | .error r => .error r

/-- `Finalize()` (R150). -/
def finalize (e : Enc) : Except Refusal Enc :=
  match emitSymbol .termination e.bsw with
  | .error r => .error r
  | .ok b =>
    match finishWrite b with
    | .ok b' => .ok { e with bsw := b', phase := .done }
    | .error r => .error r

/-- The step on `BIT(b)` in phase RUN (R143). -/
def encBit (b : Bool) (e : Enc) : Except Refusal Enc :=
  if !e.haveRun then .ok { e with haveRun := true, val := b, len := 1 }
  else if b = e.val then .ok { e with len := e.len + 1 }
  else
    match emitRun e.val e.len e with
    | .ok e' => .ok { e' with val := b, len := 1 }
    | .error r => .error r

/-- The step on `END` in phase RUN (R144). -/
def encEnd (e : Enc) : Except Refusal Enc :=
  if e.haveRun then
    match emitRun e.val e.len e with
    | .ok e' => finalize { e' with haveRun := false }
    | .error r => .error r
  else finalize e

/-- ENC's step on a token, in phase RUN only (R142). -/
def encStep (t : Token) (e : Enc) : Except Refusal Enc :=
  if e.phase = .run then
    match t with
    | .bit b => encBit b e
    | .endToken => encEnd e
  else .error .tokenOutsideRun

/-- One step of ENC on the state: DEC is not touched (R22). -/
def encToken (t : Token) (s : State) : Result :=
  match encStep t s.enc with
  | .ok e => .next (s.withEnc e)
  | .error r => .refused r

end Sys2Proof.Machine
end

