-- ==== Sys2Proof/Machine/Decoder.lean ====
section
/-! DEFINITION. The step of DEC (`45_run_decoder.md` R161 to R164), and what one caller input does. -/

namespace Sys2Proof.Machine

/-- `DecStep` (R164): parse one pattern and execute it, or take `TruncatedStream`. -/
def decStep (s : State) : Result :=
  match fetch s with
  | .pattern i t => exec i t
  | .endOfInput t => .next (raise .truncatedStream t)

/-- DEC moves: it steps in RUN and has no step otherwise (R162). -/
def decTurn (s : State) : Result := if s.dec.status = .run then decStep s else .fault .noStep

/-- One entry of the caller's script acts on the CORE. -/
def takeInput (a : Input) (s : State) : Result :=
  match a with
  | .reset => .next (hardwareReset s)
  | .encStart => encStart s
  | .token t => encToken t s
  | .decStart buf strict => decStart buf strict s
  | .decTurn => decTurn s
  | .changeBuffer _ => changeBuffer s

end Sys2Proof.Machine
end

