-- ==== Sys2Proof/Machine/Step.lean ====
section
/-! DEFINITION. One step of the machine. -/

namespace Sys2Proof.Machine

/-- The head of the caller's script acts, or, when the script is empty, DEC moves. Log entry 2. -/
def step (s : State) : Host.Outcome State Fault Refusal :=
  match s.inputs with
  | [] => decTurn s
  | a :: rest => takeInput a (s.withInputs rest)

/-- A word of the opcode table stored where the next step fetches. Log entries 9 and 10. -/
def State.withFetchWord (s : State) (nbits w : Nat) : State := placeWord nbits w s

end Sys2Proof.Machine
end

