-- ==== Sys2Proof/Machine/Calls.lean ====
section
/-! DEFINITION. Whole calls: the canonical stream of a bit sequence (`44_run_encoder.md` R141, R152), the
caller's script for one encode call, and the iteration of DEC (`45_run_decoder.md` R179). -/

namespace Sys2Proof.Machine

/-! ## The canonical stream -/

/-- The runs of a bit sequence: maximal, in order (R141). -/
def runsOf : Bits → List (Bool × Nat)
  | [] => []
  | b :: bs =>
    match runsOf bs with
    | [] => [(b, 1)]
    | (v, n) :: rs => if v = b then (v, n + 1) :: rs else (b, 1) :: (v, n) :: rs

/-- The symbols of the canonical stream (R152). -/
def streamSymbols (b : Bits) : List Symbol :=
  (if b.head? = some true then [.modeChange] else [])
    ++ (runsOf b).flatMap (fun r => runSymbols r.1 r.2) ++ [.termination]

/-- The bits of a symbol; of a continuation symbol, the marker and the value pattern (R70, R84). -/
def symbolBits : Symbol → Bits
  | .ordinary m n => (encodeLen m n).getD []
  | .continuation m n => encode .cont ++ (encodeLen m n).getD []
  | .modeChange => encode .mchg
  | .termination => encode .term

/-- The canonical stream before padding (R152). -/
def streamBits (b : Bits) : Bits := (streamSymbols b).flatMap symbolBits

/-- `compress(b)` (R152): packed most significant bit first, zero-padded. -/
def compress (b : Bits) : List Byte := packBytes (streamBits b)

/-- The caller's script of one encode call: `enc_start`, the bits, `END` (R37, R209). -/
def encodeScript (b : Bits) : List Input := .encStart :: b.map (fun x => .token (.bit x)) ++ [.token .endToken]

/-! ## Iterating DEC -/

/-- DEC steps while its status is RUN, at most `fuel` times (R179). -/
def decLoop : (fuel : Nat) → State → State
  | 0, s => s
  | fuel + 1, s =>
    if s.dec.status = .run then
      match decStep s with
      | .next t => decLoop fuel t
      | .fault _ => s
      | .refused _ => s
    else s

/-- The state after `dec_start(buf, strict)` and the whole decode call, begun in state `s` (R179). `8N + 1` steps
are enough (R222). -/
def decodeFrom (s : State) (buf : List Byte) (strict : Bool) : State :=
  decLoop (8 * buf.length + 1) (s.withDec (Dec.started buf strict))

/-- `decompress(in, strict)`: the triple (`DEC.out`, `DEC.status`, `DEC.pad_nz`) (R40, R179). -/
def decompress (buf : List Byte) (strict : Bool) : Bits × Status × Bool :=
  let d := (decodeFrom State.reset buf strict).dec
  (d.out, d.status, d.padNz)

end Sys2Proof.Machine
end

