-- ==== Sys2Proof/Safety.lean ====
section
/-! DEFINITION. The terms statements use: the invariant of the machine, and the effect of a pattern written as a
whole next state. -/

namespace Sys2Proof.Machine

/-- BSW between operations: the bits of `acc` at `cnt` and above are zero (R25). -/
structure Bsw.Wf (b : Bsw) : Prop where
  acc_lt : b.acc.toNat < 2 ^ b.cnt.toNat

/-- ENC between steps (R25, R30, R31, R88). -/
structure Enc.Wf (e : Enc) : Prop where
  bsw : e.bsw.Wf
  fin_iff : e.bsw.fin = true ↔ e.phase = .done
  done_cnt : e.phase = .done → e.bsw.cnt = 0
  len_pos : e.haveRun = true → 1 ≤ e.len
  idle_reset : e.phase = .idle → e = Enc.reset

/-- DEC between steps (R27, R28, R33, R34, R173, R176). -/
structure Dec.Wf (d : Dec) : Prop where
  buf_wf : d.bsr.mem.wf = true
  pos_le : d.bsr.rPos ≤ 8 * d.bsr.mem.size
  has_buf : d.status ≠ .idle → d.bsr.buf.isSome = true
  padding_strict : d.status = .padding → d.padNz = true ∧ d.strict = true
  warning_lenient : d.status = .ok → d.padNz = true → d.strict = false
  clean : d.status = .run ∨ d.status = .truncated → d.padNz = false
  idle_reset : d.status = .idle → d = Dec.reset

/-- The invariant: it constrains no caller script. -/
structure State.Inv (s : State) : Prop where
  enc : s.enc.Wf
  dec : s.dec.Wf

/-- The state after a data pattern of length `n`, run in the table of R163: the run is appended in that table's
bit value; an ordinary symbol flips `mode`, a value pattern does not; nothing else changes (R165 to R167). -/
def afterData (n : Nat) (s : State) : State :=
  { s with dec := { s.dec with
      out := s.dec.out ++ List.replicate n (tableOf s.dec).bit
      runMode := tableOf s.dec
      mode := if s.dec.hold then s.dec.mode else s.dec.mode.other
      hold := false } }

/-- Some bit after `TERM` is 1: the condition of `PaddingError` (R188). -/
def nonzeroPadding (s : State) : Prop :=
  ∃ a, s.dec.bsr.rPos ≤ a ∧ a < 8 * s.dec.bsr.mem.size ∧ bitAt s.dec.bsr.mem a = true

/-- The pattern `i` stands in the buffer at bit address `pos`, all of it inside the buffer (R50, R54). -/
def standsAt (i : Instr) (m : Memory) (pos : Nat) : Prop :=
  pos + (encode i).length ≤ 8 * m.size ∧ bitsAt m pos (encode i).length = encode i

/-- The bits of a bit string shifted into BSW one after the other (R86). -/
def putString (bs : Bits) (b : Bsw) : Bsw := bs.foldl Bsw.putBit b

/-- The cost in bits of one run (R155). -/
def runCost (v : Bool) (n : Nat) : Nat :=
  let m := Mode.ofBit v
  let q := (n - 1) / Config.maxLen m
  let patternBits := fun k => ((encodeLen m k).getD []).length
  if n ≤ Config.maxLen m then patternBits n
  else 24 + (q - 1) * 48 + 24 + patternBits (n - q * Config.maxLen m)

end Sys2Proof.Machine
end

