-- ==== Sys2Proof/Certificates/Slice0/Obligations.lean ====
section
/-! DEFINITION. The statements for the provers. A statement that rests on one of the spec's own decisions
(`92_eei_decisions.md`) or on a choice of the model names it. -/

open Sys2Proof Sys2Proof.Machine

/-- Each Mode0 regular tier completes with the run length of its rule (`41_code_table_mode0.md` section 2), in every
state. In a state whose table is not Mode0, which no fetch reaches, the effect is the model's choice (log entry 6). -/
def Obligations.Mode0TiersAppendTheirRuns : Prop :=
  ∀ s : State,
    (∀ x, exec (.z0 x) s = .next (afterData (1 + x.toNat) s)) ∧
    (∀ x, exec (.z1 x) s = .next (afterData (3 + x.toNat) s)) ∧
    (∀ x, exec (.z2 x) s = .next (afterData (7 + x.toNat) s)) ∧
    (∀ x, exec (.z3 x) s = .next (afterData (15 + x.toNat) s)) ∧
    (∀ x, exec (.z4 x) s = .next (afterData (31 + x.toNat) s)) ∧
    (∀ x, exec (.z5 x) s = .next (afterData (63 + x.toNat) s)) ∧
    (∀ x, exec (.z6 x) s = .next (afterData (127 + x.toNat) s)) ∧
    (∀ x, exec (.z7 x) s = .next (afterData (255 + x.toNat) s)) ∧
    (∀ x, exec (.z8 x) s = .next (afterData (511 + x.toNat) s)) ∧
    (∀ x, exec (.z9 x) s = .next (afterData (1023 + x.toNat) s)) ∧
    (∀ x, exec (.z10 x) s = .next (afterData (2047 + x.toNat) s)) ∧
    (∀ x, exec (.z11 x) s = .next (afterData (4095 + x.toNat) s))

/-- Each Mode1 regular tier completes with the run length of its rule (`42_code_table_mode1.md` section 2), in every
state. In a state whose table is not Mode1, which no fetch reaches, the effect is the model's choice (log entry 6). -/
def Obligations.Mode1TiersAppendTheirRuns : Prop :=
  ∀ s : State,
    exec .o1 s = .next (afterData 1 s) ∧
    exec .o2 s = .next (afterData 2 s) ∧
    exec .o3 s = .next (afterData 3 s) ∧
    exec .o4 s = .next (afterData 4 s) ∧
    exec .o5 s = .next (afterData 5 s) ∧
    exec .o6 s = .next (afterData 6 s) ∧
    exec .o7 s = .next (afterData 7 s) ∧
    exec .o8 s = .next (afterData 8 s) ∧
    exec .o9 s = .next (afterData 9 s) ∧
    exec .o10 s = .next (afterData 10 s) ∧
    exec .o11 s = .next (afterData 11 s) ∧
    exec .o12 s = .next (afterData 12 s)

/-- The overflow tiers complete with `OVF_MIN + x`, for every suffix that is data. The bound 4092 is the spec's own
decision D1 (log entry 1). In a state whose table is not the pattern's own, which no fetch reaches, the effect is the
model's choice (log entry 6). -/
def Obligations.OverflowTiersAppendTheirRuns : Prop :=
  ∀ (s : State) (x : BitVec 12), x.toNat ≤ 4092 →
    exec (.zov x) s = .next (afterData (8191 + x.toNat) s) ∧
    exec (.oov x) s = .next (afterData (13 + x.toNat) s)

/-- R166: the ordinary symbol, for every data pattern of the active table. -/
def Obligations.OrdinarySymbolAppendsRunAndFlips : Prop :=
  ∀ (i : Instr) (n : Nat) (s : State), i.wf = true → i.inTable (tableOf s.dec) = true →
    dataLen i = some n → s.dec.hold = false →
    exec i s = .next { s with dec := { s.dec with
      out := s.dec.out ++ List.replicate n s.dec.mode.bit
      runMode := s.dec.mode
      mode := s.dec.mode.other } } ∧
    s.dec.mode.other ≠ s.dec.mode

/-- The value pattern of a continuation symbol, for every data pattern of the table of `run_mode`; the spec's own
decision D3 (log entry 15). -/
def Obligations.ValuePatternExtendsRun : Prop :=
  ∀ (i : Instr) (n : Nat) (s : State), i.wf = true → i.inTable (tableOf s.dec) = true →
    dataLen i = some n → s.dec.hold = true →
    exec i s = .next { s with dec := { s.dec with
      out := s.dec.out ++ List.replicate n s.dec.runMode.bit
      hold := false } }

/-- Which bit value each table stands for (`41_code_table_mode0.md` and `42_code_table_mode1.md`, section 1), with the
frame. For an overflow suffix above 4092, which no fetch yields, the effect is the model's choice (log entry 6). -/
def Obligations.TablesAppendTheirOwnBit : Prop :=
  ∀ (i : Instr) (n : Nat) (m : Mode) (s : State),
    dataLen i = some n → i.table = some m → tableOf s.dec = m →
    ∃ t, exec i s = .next t ∧
      t.dec.out = s.dec.out ++ List.replicate n (decide (m = .mode1)) ∧
      t.dec.runMode = m ∧ t.dec.hold = false ∧
      (s.dec.hold = true → t.dec.mode = s.dec.mode) ∧
      (s.dec.hold = false → s.dec.mode = m ∧ t.dec.mode = m.other) ∧
      t.dec.strict = s.dec.strict ∧ t.dec.status = s.dec.status ∧ t.dec.padNz = s.dec.padNz ∧
      t.dec.bsr = s.dec.bsr ∧ t.enc = s.enc ∧ t.inputs = s.inputs

/-- `CONT`, the spec's own decision D2 (log entry 15). -/
def Obligations.ContinuationMarkerSetsHold : Prop :=
  ∀ s : State, exec .cont s = .next { s with dec := { s.dec with hold := true } }

/-- `MCHG`, the spec's own decision D4 (log entry 16). -/
def Obligations.ModeChangeToggles : Prop :=
  ∀ s : State,
    (s.dec.mode = .mode0 → exec .mchg s = .next { s with dec := { s.dec with mode := .mode1 } }) ∧
    (s.dec.mode = .mode1 → exec .mchg s = .next { s with dec := { s.dec with mode := .mode0 } })

/-- `TERM` with the padding validation, by the spec's own decisions D6 and D7 (log entries 18, 19). -/
def Obligations.TerminationSetsStatus : Prop :=
  ∀ s : State,
    (¬ nonzeroPadding s → exec .term s = .next { s with dec := { s.dec with status := .ok, padNz := false } }) ∧
    (nonzeroPadding s → s.dec.strict = true →
      exec .term s = .next { s with dec := { s.dec with status := .padding, padNz := true } }) ∧
    (nonzeroPadding s → s.dec.strict = false →
      exec .term s = .next { s with dec := { s.dec with status := .ok, padNz := true } })

/-- `finish_read`, with the extent of the spec's own decision D6 (log entry 18). -/
def Obligations.PaddingCheckSeesEveryBit : Prop :=
  ∀ r : Bsr,
    (finishRead r = .ok ↔ ∀ a, r.rPos ≤ a → a < 8 * r.mem.size → bitAt r.mem a = false) ∧
    (finishRead r = .paddingError ↔ ∃ a, r.rPos ≤ a ∧ a < 8 * r.mem.size ∧ bitAt r.mem a = true) ∧
    (r.rPos = 8 * r.mem.size → finishRead r = .ok)

/-- The frame every instruction keeps: the CORE never writes `DEC.in` (`10_state.md` section 4). -/
def Obligations.NoPatternWritesMemory : Prop :=
  ∀ (i : Instr) (s : State), ∃ t, exec i s = .next t ∧
    (∀ a, t.dec.bsr.mem.byte? a = s.dec.bsr.mem.byte? a) ∧
    t.dec.bsr.mem.size = s.dec.bsr.mem.size ∧ t.dec.bsr.buf = s.dec.bsr.buf ∧
    t.dec.bsr.rPos = s.dec.bsr.rPos ∧ t.dec.strict = s.dec.strict ∧
    t.enc = s.enc ∧ t.inputs = s.inputs ∧ s.dec.out <+: t.dec.out

/-- Decode and encode agree, for all 29 patterns, at every alignment (`30_encoding.md` sections 2, 4 and 5). -/
def Obligations.DecodeOfEncodedPattern : Prop :=
  ∀ (tbl : Mode) (i : Instr) (m : Memory) (pos : Nat),
    i.wf = true → i.inTable tbl = true → standsAt i m pos →
    decode tbl m pos = .pattern i (pos + (encode i).length)

/-- No bit is misread or dropped: the other direction of decode and encode (`30_encoding.md` section 4). -/
def Obligations.DecodedPatternStandsThere : Prop :=
  ∀ (tbl : Mode) (i : Instr) (m : Memory) (pos p : Nat), decode tbl m pos = .pattern i p →
    i.wf = true ∧ i.inTable tbl = true ∧ standsAt i m pos ∧ p = pos + (encode i).length

/-- The only way a parse fails is by running out of input (`30_encoding.md` section 4), and the position it then leaves
is the address after its last successful read: after the zeros of a prefix cut short, after a Mode0 prefix whose suffix
is cut short, or after the twelve zeros of an overflow prefix. That the failed read itself consumes nothing is the
spec's own decision D8 (log entry 23). -/
def Obligations.TruncationExactlyWhereNoPatternFits : Prop :=
  ∀ (tbl : Mode) (m : Memory) (pos : Nat),
    ((∃ p, decode tbl m pos = .endOfInput p) ↔
      ¬ ∃ i : Instr, i.wf = true ∧ i.inTable tbl = true ∧ standsAt i m pos) ∧
    (∀ p, decode tbl m pos = .endOfInput p ↔
      (∃ z, z < 12 ∧ p = pos + z ∧ (z = 0 ∨ p ≤ 8 * m.size) ∧ 8 * m.size < p + 1 ∧
        bitsAt m pos z = List.replicate z false) ∨
      (tbl = .mode0 ∧ ∃ k, k < 12 ∧ p = pos + k + 1 ∧ p ≤ 8 * m.size ∧ 8 * m.size < p + (k + 1) ∧
        bitsAt m pos (k + 1) = List.replicate k false ++ [true]) ∨
      (p = pos + 12 ∧ p ≤ 8 * m.size ∧ 8 * m.size < p + 12 ∧ bitsAt m pos 12 = List.replicate 12 false))

/-- R81: `EncodeLen` and `ParsePattern` are inverse, and ENC stays inside the domain. -/
def Obligations.EncodeLenIsInverseOfParse : Prop :=
  (∀ (tbl : Mode) (n : Nat), 1 ≤ n → n ≤ Config.maxLen tbl → ∃ i : Instr,
    encodeLen tbl n = some (encode i) ∧ i.wf = true ∧ i.inTable tbl = true ∧ dataLen i = some n ∧
    ∀ m pos, standsAt i m pos → decode tbl m pos = .pattern i (pos + (encode i).length)) ∧
  (∀ (tbl : Mode) (i : Instr) (n : Nat), i.wf = true → i.inTable tbl = true → dataLen i = some n →
    encodeLen tbl n = some (encode i)) ∧
  (∀ (tbl : Mode) (n : Nat), encodeLen tbl n = none ↔ (n = 0 ∨ Config.maxLen tbl < n)) ∧
  (∀ (e : Enc) (t : Token), e.Wf → encStep t e ≠ .error .noPattern)

/-- R134: what the three control patterns share, whatever `mode`, `run_mode` and `hold` are. -/
def Obligations.ControlPatternsModeIndependent : Prop :=
  ∀ c ∈ [(Instr.cont, 0xFFD), (Instr.mchg, 0xFFE), (Instr.term, 0xFFF)],
    encode c.1 = List.replicate 12 false ++ bin 12 c.2 ∧ (encode c.1).length = 24 ∧
    (∀ tbl m pos, standsAt c.1 m pos → decode tbl m pos = .pattern c.1 (pos + 24)) ∧
    (∀ s, ∃ t, exec c.1 s = .next t ∧ t.dec.out = s.dec.out) ∧
    (∀ (s : State) (k : Nat), k < 24 → s.dec.bsr.rPos + k = 8 * s.dec.bsr.mem.size →
      bitsAt s.dec.bsr.mem s.dec.bsr.rPos k = (encode c.1).take k → s.dec.status = .run →
      (∀ tbl, ∃ p, decode tbl s.dec.bsr.mem s.dec.bsr.rPos = .endOfInput p) ∧
      ∃ t, decTurn s = .next t ∧ t.dec.status = .truncated)

/-- Each table is a complete prefix code; there is no illegal pattern (`30_encoding.md` section 4). -/
def Obligations.TablesAreCompletePrefixCodes : Prop :=
  (∀ (tbl : Mode) (i j : Instr), i.wf = true → j.wf = true → i.inTable tbl = true → j.inTable tbl = true →
    encode i <+: encode j → i = j) ∧
  (∀ (tbl : Mode) (bs : Bits), 24 ≤ bs.length →
    ∃! i : Instr, i.wf = true ∧ i.inTable tbl = true ∧ encode i <+: bs)

/-- The tier boundaries of both tables; the upper ends rest on the spec's own decision D1 (log entry 1). -/
def Obligations.EveryLengthHasOnePattern : Prop :=
  ∀ (tbl : Mode) (n : Nat),
    (1 ≤ n ∧ n ≤ (match tbl with | .mode0 => 12283 | .mode1 => 4105) →
      ∃! i : Instr, i.wf = true ∧ i.inTable tbl = true ∧ dataLen i = some n) ∧
    ((∃ i : Instr, i.wf = true ∧ i.inTable tbl = true ∧ dataLen i = some n) →
      1 ≤ n ∧ n ≤ (match tbl with | .mode0 => 12283 | .mode1 => 4105))

/-- A sanity statement on words written out from the spec's encodings (`95_test_vectors.md` sections 3 to 5). -/
def Obligations.WrittenWordsDecode : Prop :=
  decode .mode0 (Memory.ofBytes [0x46]) 0 = .pattern (.z1 0) 4 ∧
  decode .mode1 (Memory.ofBytes [0x46]) 4 = .pattern .o2 6 ∧
  decode .mode0 (Memory.ofBytes [0x46]) 6 = .pattern (.z0 0) 8 ∧
  decode .mode0 (Memory.ofBytes [0x00, 0x0F, 0xFD]) 0 = .pattern .cont 24 ∧
  decode .mode1 (Memory.ofBytes [0x00, 0x0F, 0xFD]) 0 = .pattern .cont 24 ∧
  decode .mode0 (Memory.ofBytes [0x00, 0x0F, 0xFE]) 0 = .pattern .mchg 24 ∧
  decode .mode1 (Memory.ofBytes [0x00, 0x0F, 0xFE]) 0 = .pattern .mchg 24 ∧
  decode .mode0 (Memory.ofBytes [0x00, 0x0F, 0xFF]) 0 = .pattern .term 24 ∧
  decode .mode1 (Memory.ofBytes [0x00, 0x0F, 0xFF]) 0 = .pattern .term 24 ∧
  decode .mode0 (Memory.ofBytes [0x00, 0x00, 0x07]) 0 = .pattern (.zov 7) 24 ∧
  decode .mode1 (Memory.ofBytes [0x00, 0x00, 0x07]) 0 = .pattern (.oov 7) 24 ∧
  decode .mode0 (Memory.ofBytes [0x00, 0x1F, 0xFF]) 0 = .pattern (.z11 4095) 24

/-- Bit order and field order (`00_scope.md` section 5, `20_memory.md` section 2). -/
def Obligations.StreamIsMostSignificantBitFirst : Prop :=
  (∀ (bs : List Byte) (i : Nat) (h : i / 8 < bs.length),
    (bitAt (Memory.ofBytes bs) i).toNat = (bs[i / 8].toNat >>> (7 - i % 8)) &&& 1) ∧
  (∀ (m : Memory) (pos n : Nat),
    memRead m pos n = ∑ j ∈ Finset.range n, (bitAt m (pos + j)).toNat * 2 ^ (n - 1 - j))

/-- The concatenation law of writing (`40_bit_sequencer.md` section 2). -/
def Obligations.WritesConcatenate : Prop :=
  ∀ (b : Bsw) (v1 w1 v2 w2 : Nat), w1 + w2 ≤ 24 → v1 < 2 ^ w1 → v2 < 2 ^ w2 →
    (writeBits v1 w1 b).bind (writeBits v2 w2) = writeBits (v1 * 2 ^ w2 + v2) (w1 + w2) b

/-- The general law of writing (`40_bit_sequencer.md` section 2). -/
def Obligations.WritesPackTheirBits : Prop :=
  ∀ ws : List (Nat × Nat), (∀ w ∈ ws, w.2 ≤ 24) → ∃ b : Bsw,
    ws.foldlM (fun b w => writeBits w.1 w.2 b) Bsw.reset = Except.ok b ∧ b.fin = false ∧
    (let bits := ws.flatMap (fun w => bin w.2 w.1)
     b.out = packBytes (bits.take (8 * (bits.length / 8))) ∧
     b.cnt.toNat = bits.length % 8 ∧
     b.acc.toNat = natOfBits (bits.drop (8 * (bits.length / 8))))

/-- `finish_write` (`40_bit_sequencer.md` section 2). -/
def Obligations.FinishWritePadsWithZeros : Prop :=
  ∀ bs : Bits, ∃ b : Bsw, finishWrite (putString bs Bsw.reset) = .ok b ∧
    b.out = packBytes bs ∧ b.out.length = (bs.length + 7) / 8 ∧ b.acc = 0 ∧ b.cnt = 0 ∧ b.fin = true

/-- The concatenation law of reading (`40_bit_sequencer.md` section 3). -/
def Obligations.ReadsConcatenate : Prop :=
  ∀ (r r1 r2 : Bsr) (w1 w2 a b : Nat), w1 + w2 ≤ 24 →
    readBits w1 r = .ok (.bits a r1) → readBits w2 r1 = .ok (.bits b r2) →
    readBits (w1 + w2) r = .ok (.bits (a * 2 ^ w2 + b) r2) ∧ b < 2 ^ w2 ∧ r2.buf = r.buf

/-- `read_bits`; that it leaves the sequencer as it was at the end of the buffer is the spec's own decision D8 (log
entry 23). -/
def Obligations.EndOfInputConsumesNothing : Prop :=
  ∀ (w : Nat) (r : Bsr), w ≤ 24 →
    (readBits w r = .ok (.endOfInput r) ↔ 8 * r.mem.size < r.rPos + w) ∧
    (∀ r', readBits w r = .ok (.endOfInput r') → r' = r) ∧
    (r.rPos + w ≤ 8 * r.mem.size →
      readBits w r = .ok (.bits (memRead r.mem r.rPos w) { buf := r.buf, rPos := r.rPos + w }))

/-- `peek_bit`; that the parse does not use it is the spec's own decision D19 (log entry 26). -/
def Obligations.PeekAgreesWithRead : Prop :=
  ∀ r : Bsr, (peekBit r = none ↔ 8 * r.mem.size ≤ r.rPos) ∧
    ∀ b : Bool, peekBit r = some b ↔
      readBits 1 r = .ok (.bits b.toNat { buf := r.buf, rPos := r.rPos + 1 })

/-- What the spec refuses at the Bit Sequencer, its own decisions D9 and D10 (log entry 7). -/
def Obligations.SequencerMisuseRefused : Prop :=
  (∀ v w b, 24 < w → writeBits v w b = .error .widthOver24) ∧
  (∀ w r, 24 < w → readBits w r = .error .widthOver24) ∧
  (∀ v w (b : Bsw), w ≤ 24 → b.fin = true → writeBits v w b = .error .writeAfterFinish) ∧
  (∀ b : Bsw, b.fin = true → finishWrite b = .error .writeAfterFinish)

/-- One step of DEC parses one pattern and executes it (`45_run_decoder.md` section 2). The script is the model's
choice (log entry 2). -/
def Obligations.StepRunsDecodedInstruction : Prop :=
  ∀ (s : State) (i : Instr) (p : Nat), s.dec.status = .run →
    decode (if s.dec.hold then s.dec.runMode else s.dec.mode) s.dec.bsr.mem s.dec.bsr.rPos = .pattern i p →
    (s.inputs = [] →
      step s = exec i { s with dec := { s.dec with bsr := { s.dec.bsr with rPos := p } } }) ∧
    (∀ rest, s.inputs = .decTurn :: rest →
      step s = exec i { s with inputs := rest, dec := { s.dec with bsr := { s.dec.bsr with rPos := p } } })

/-- Trap entry of `TruncatedStream`, with the spec's own decisions D12 and D18 (log entry 21), by either way DEC moves;
the script is the model's choice (log entry 2). -/
def Obligations.TruncationTakesTheTrap : Prop :=
  ∀ (s : State) (p : Nat), s.dec.status = .run →
    decode (if s.dec.hold then s.dec.runMode else s.dec.mode) s.dec.bsr.mem s.dec.bsr.rPos = .endOfInput p →
    (s.inputs = [] →
      step s = .next { s with dec := { s.dec with status := .truncated, bsr := { s.dec.bsr with rPos := p } } }) ∧
    (∀ rest, s.inputs = .decTurn :: rest →
      step s = .next { s with inputs := rest, dec := { s.dec with
        status := .truncated, bsr := { s.dec.bsr with rPos := p } } })

/-- DEC steps only in RUN, the spec's own decision D17; the fault and the script are the model's choices (log entries 3
and 2). -/
def Obligations.NoStepOutsideRun : Prop :=
  ∀ s : State, s.dec.status ≠ .run →
    (s.inputs = [] → step s = .fault .noStep) ∧
    (∀ rest, s.inputs = .decTurn :: rest → step s = .fault .noStep)

/-- `dec_start`, the spec's own decision D17 (log entry 22). -/
def Obligations.DecStartBeginsAFreshCall : Prop :=
  ∀ (s : State) (buf : List Byte) (strict : Bool) (rest : List Input),
    s.inputs = .decStart buf strict :: rest →
    (s.dec.status ≠ .run → step s = .next
      { enc := s.enc
        dec := { mode := .mode0, runMode := .mode0, hold := false, strict := strict, status := .run, padNz := false,
                 out := [], bsr := { buf := some (Memory.ofBytes buf), rPos := 0 } }
        inputs := rest }) ∧
    (s.dec.status = .run → step s = .refused .decStartInRun)

/-- `enc_start` and its guards, the spec's own decisions D10 and D17 (log entries 7, 22). -/
def Obligations.EncStartBeginsAFreshCall : Prop :=
  (∀ (s : State) (rest : List Input), s.inputs = .encStart :: rest →
    (s.enc.phase ≠ .run → step s = .next
      { enc := { mode := .mode0, haveRun := false, val := false, len := 0, phase := .run,
                 bsw := { acc := 0, cnt := 0, fin := false, out := [] } }
        dec := s.dec
        inputs := rest }) ∧
    (s.enc.phase = .run → step s = .refused .encStartInRun)) ∧
  (∀ (s : State) (t : Token) (rest : List Input), s.inputs = .token t :: rest → s.enc.phase ≠ .run →
    step s = .refused .tokenOutsideRun)

/-- The caller changes its buffer: no meaning during a decode call, the spec's own decision D22; afterwards the caller
may reuse it freely. The script and the entry are the model's (log entries 2, 12). -/
def Obligations.BufferChangeHasNoMeaningInACall : Prop :=
  ∀ (s : State) (buf : List Byte) (rest : List Input), s.inputs = .changeBuffer buf :: rest →
    (s.dec.status = .run → step s = .refused .bufferChangedInRun) ∧
    (s.dec.status ≠ .run → step s = .next { s with inputs := rest })

/-- The reset table of `10_state.md` section 12, the spec's own decision D17 (log entry 22); the script is the model's
(log entry 11). -/
def Obligations.HardwareResetSetsEveryRegister : Prop :=
  ∀ (s : State) (rest : List Input), s.inputs = .reset :: rest →
    step s = .next
      { enc := { mode := .mode0, haveRun := false, val := false, len := 0, phase := .idle,
                 bsw := { acc := 0, cnt := 0, fin := false, out := [] } }
        dec := { mode := .mode0, runMode := .mode0, hold := false, strict := true, status := .idle, padNz := false,
                 out := [], bsr := { buf := none, rPos := 0 } }
        inputs := rest } ∧
    step s = .next (State.reset.withInputs rest)

/-- The invariant of `Safety.lean` is kept by every step, whatever the caller does. -/
def Obligations.EveryStepKeepsTheInvariant : Prop :=
  ∀ s t : State, s.Inv → step s = .next t → t.Inv

/-- The invariant holds at reset, whatever script the caller has. -/
def Obligations.ResetMeetsTheInvariant : Prop :=
  ∀ l : List Input, (State.reset.withInputs l).Inv

/-- ENC and DEC share no register, so their steps interleave freely (`10_state.md` section 1). -/
def Obligations.UnitsCommute : Prop :=
  ∀ (s u : State) (a : Input) (rest : List Input), (a = .encStart ∨ ∃ t, a = .token t) →
    (Host.Core.run Sys2Proof.core 2 (s.withInputs (a :: .decTurn :: rest)) = .next u ↔
     Host.Core.run Sys2Proof.core 2 (s.withInputs (.decTurn :: a :: rest)) = .next u)

/-- The independence of the two units, step by step (`10_state.md` section 1). That a step takes one entry of the script
is the model's choice (log entry 2), and so is the entry by which the caller changes its buffer (log entry 12). -/
def Obligations.StepTouchesOnlyItsUnit : Prop :=
  ∀ s t : State, step s = .next t →
    t.inputs = s.inputs.tail ∧
    match s.inputs with
    | [] => t.enc = s.enc
    | .decTurn :: _ => t.enc = s.enc
    | .decStart _ _ :: _ => t.enc = s.enc
    | .encStart :: _ => t.dec = s.dec
    | .token _ :: _ => t.dec = s.dec
    | .changeBuffer _ :: _ => t.enc = s.enc ∧ t.dec = s.dec
    | .reset :: _ => t.enc = State.reset.enc ∧ t.dec = State.reset.dec

/-- Sequential access: nothing emitted is withdrawn, nothing is read twice (`20_memory.md` section 1). -/
def Obligations.OutputsOnlyGrow : Prop :=
  ∀ s t : State, step s = .next t → s.inputs.head? ≠ some .reset →
    (s.inputs.head? ≠ some .encStart → s.enc.bsw.out <+: t.enc.bsw.out) ∧
    ((∀ buf strict, s.inputs.head? ≠ some (.decStart buf strict)) →
      s.dec.out <+: t.dec.out ∧ t.dec.bsr.buf = s.dec.bsr.buf ∧ s.dec.bsr.rPos ≤ t.dec.bsr.rPos)

/-- The two exceptions are the only ones and exclude each other; no symbol order is rejected (the spec's own decision
D13, log entry 20). The script is the model's choice (log entry 2). -/
def Obligations.HowADecodeCallEnds : Prop :=
  ∀ s : State, (s.inputs = [] ∨ s.inputs.head? = some .decTurn) → s.dec.status = .run → ∃ t, step s = .next t ∧
    (let parse := decode (tableOf s.dec) s.dec.bsr.mem s.dec.bsr.rPos
     (t.dec.status = .truncated ↔ ∃ p, parse = .endOfInput p) ∧
     (t.dec.status = .ok ∨ t.dec.status = .padding ↔ ∃ p, parse = .pattern .term p) ∧
     (t.dec.status = .padding → s.dec.strict = true ∧ t.dec.padNz = true) ∧
     (t.dec.status = .run ↔ ∃ i p, parse = .pattern i p ∧ i ≠ .term))

/-- What `strict` can change (`45_run_decoder.md` section 6), with the spec's own decision D7 (log entry 19). -/
def Obligations.StrictOnlySelectsTheStatus : Prop :=
  ∀ buf : List Byte,
    (decompress buf true).1 = (decompress buf false).1 ∧
    (decompress buf true).2.2 = (decompress buf false).2.2 ∧
    ((decompress buf true).2.1 = .truncated ↔ (decompress buf false).2.1 = .truncated) ∧
    (decompress buf false).2.1 ≠ .padding ∧
    ((decompress buf true).2.1 ≠ (decompress buf false).2.1 →
      (decompress buf true).2 = (.padding, true) ∧ (decompress buf false).2 = (.ok, true))

/-- DEC is total and terminates (`45_run_decoder.md` section 6, `70_reset_and_hazards.md` section 4). -/
def Obligations.EveryDecodeCallTerminates : Prop :=
  ∀ (s : State) (buf : List Byte) (strict : Bool), s.dec.status ≠ .run → ∃ k t,
    k ≤ 8 * buf.length + 1 ∧
    Host.Core.run Sys2Proof.core (k + 1) (s.withInputs [.decStart buf strict]) = .next t ∧
    t.dec.status.terminal = true ∧ t.dec = (decodeFrom s buf strict).dec ∧ t.enc = s.enc

/-- Idempotent error reporting: there is no cross-call state (`45_run_decoder.md` section 7). -/
def Obligations.DecodeIgnoresWhatCameBefore : Prop :=
  ∀ (s s' : State) (buf : List Byte) (strict : Bool),
    (decodeFrom s buf strict).dec = (decodeFrom s' buf strict).dec

/-- The run scanner (`44_run_encoder.md` sections 2 and 3), the spec's own decisions D14 and D15 (log entries 14, 21). -/
def Obligations.BitTokenScansRuns : Prop :=
  ∀ (s : State) (b : Bool) (rest : List Input), s.inputs = .token (.bit b) :: rest → s.enc.phase = .run →
    (s.enc.haveRun = false →
      step s = .next { s with inputs := rest, enc := { s.enc with haveRun := true, val := b, len := 1 } }) ∧
    (s.enc.haveRun = true → s.enc.val = b →
      step s = .next { s with inputs := rest, enc := { s.enc with len := s.enc.len + 1 } }) ∧
    (s.enc.haveRun = true → s.enc.val ≠ b → 1 ≤ s.enc.len → s.enc.bsw.fin = false →
      step s = .next { s with inputs := rest, enc := { s.enc with
        mode := (Mode.ofBit s.enc.val).other
        val := b
        len := 1
        bsw := putString ((emitRunSymbols s.enc.mode s.enc.val s.enc.len).flatMap symbolBits) s.enc.bsw } })

/-- The step on `END` with finalisation (`44_run_encoder.md` sections 2 and 4). -/
def Obligations.EndTokenFinalizes : Prop :=
  ∀ (s : State) (rest : List Input), s.inputs = .token .endToken :: rest → s.enc.phase = .run →
    s.enc.bsw.fin = false → (s.enc.haveRun = true → 1 ≤ s.enc.len) →
    (let symbols := if s.enc.haveRun then emitRunSymbols s.enc.mode s.enc.val s.enc.len else []
     let bits := symbols.flatMap symbolBits ++ encode .term
     ∃ b, finishWrite (putString bits s.enc.bsw) = .ok b ∧
      step s = .next { s with inputs := rest, enc := { s.enc with
        mode := if s.enc.haveRun then (Mode.ofBit s.enc.val).other else s.enc.mode
        haveRun := false
        phase := .done
        bsw := b } })

/-- The run splitting of ENC and its layout: the ordinary symbol first, the rest continuation symbols, the remainder
last, all in the run's own table, a mode change before it exactly when that is not the active one
(`30_encoding.md` section 8, `44_run_encoder.md` section 3). The spec's own decisions D2 and D5 (log entries 15, 17). -/
def Obligations.RunSplitsIntoMaximalPieces : Prop :=
  ∀ (m : Mode) (L : Nat), 1 ≤ L →
    (let q := (L - 1) / Config.maxLen m
     let r := L - q * Config.maxLen m
     pieces m L L = List.replicate q (Config.maxLen m) ++ [r] ∧
     1 ≤ r ∧ r ≤ Config.maxLen m ∧ (pieces m L L).sum = L ∧
     (pieces m L L).length = (L + Config.maxLen m - 1) / Config.maxLen m ∧
     ∀ (v : Bool) (active : Mode), Mode.ofBit v = m →
      emitRunSymbols active v L = (if m = active then [] else [.modeChange]) ++
        (if q = 0 then [.ordinary m L]
         else .ordinary m (Config.maxLen m) ::
          (List.replicate (q - 1) (.continuation m (Config.maxLen m)) ++ [.continuation m r])))

/-- R151: ENC raises no exception; every finite input completes. -/
def Obligations.EveryEncodeCallCompletes : Prop :=
  ∀ (s : State) (b : Bits), s.enc.phase ≠ .run → ∃ t,
    Host.Core.run Sys2Proof.core (b.length + 2) (s.withInputs (encodeScript b)) = .next t ∧
    t.enc.phase = .done ∧ t.dec.status = s.dec.status

/-- The token-by-token encoder refines the whole-call function (`44_run_encoder.md` section 5). -/
def Obligations.EncoderEmitsTheCanonicalStream : Prop :=
  ∀ (s : State) (b : Bits), s.enc.phase ≠ .run → ∃ t,
    Host.Core.run Sys2Proof.core (b.length + 2) (s.withInputs (encodeScript b)) = .next t ∧
    t.enc.phase = .done ∧ t.enc.bsw.out = compress b ∧ t.dec = s.dec ∧ t.inputs = []

/-- The central invariant and continuation correctness (`10_state.md` section 8, `45_run_decoder.md` section 7): an ENC in
the same mode that writes the run, and the DEC that reads it, end in the same mode. With the spec's own decision D3 (log
entry 15). -/
def Obligations.DecodingARunKeepsModesAgreed : Prop :=
  ∀ (s : State) (v : Bool) (n : Nat), s.inputs = [] → s.dec.status = .run → s.dec.hold = false → 1 ≤ n →
    (let bits := (emitRunSymbols s.dec.mode v n).flatMap symbolBits
     s.dec.bsr.rPos + bits.length ≤ 8 * s.dec.bsr.mem.size →
     bitsAt s.dec.bsr.mem s.dec.bsr.rPos bits.length = bits →
     ∃ k t, Host.Core.run Sys2Proof.core k s = .next t ∧
      t.dec.out = s.dec.out ++ List.replicate n v ∧ t.dec.mode = (Mode.ofBit v).other ∧
      t.dec.runMode = Mode.ofBit v ∧ t.dec.hold = false ∧ t.dec.status = .run ∧
      t.dec.bsr.rPos = s.dec.bsr.rPos + bits.length ∧ t.dec.bsr.buf = s.dec.bsr.buf ∧ t.enc = s.enc ∧
      ∀ e e' : Enc, e.mode = s.dec.mode → emitRun v n e = .ok e' →
        t.dec.mode = e'.mode ∧ e'.bsw = putString bits e.bsw)

/-- R183: the round trip. -/
def Obligations.RoundTrip : Prop :=
  ∀ (b : Bits) (strict : Bool), decompress (compress b) strict = (b, .ok, false)

/-- The size law (`44_run_encoder.md` section 5). -/
def Obligations.StreamSizeLaw : Prop :=
  ∀ b : Bits,
    (streamBits b).length =
      (if b.head? = some true then 24 else 0) + ((runsOf b).map (fun r => runCost r.1 r.2)).sum + 24 ∧
    (compress b).length = ((streamBits b).length + 7) / 8 ∧ 3 ≤ (compress b).length

/-- Where control patterns stand in a canonical stream (`43_control_symbols.md` section 3): `CONT` only after a symbol of
length `MAX` of its own table and before a data pattern of that table. Marker and value pattern are the spec's own
decision D2 (log entry 15). -/
def Obligations.ControlSymbolPlacement : Prop :=
  ∀ b : Bits, ∃ mid : List Symbol,
    streamSymbols b = (if b.head? = some true then [.modeChange] else []) ++ mid ++ [.termination] ∧
    .modeChange ∉ mid ∧ .termination ∉ mid ∧
    (∀ m n, .continuation m n ∈ mid → 1 ≤ n ∧ n ≤ Config.maxLen m) ∧
    (∀ m n, .ordinary m n ∈ mid → 1 ≤ n ∧ n ≤ Config.maxLen m) ∧
    (∀ pre post m n, mid = pre ++ .continuation m n :: post →
      (∃ before, pre = before ++ [.ordinary m (Config.maxLen m)] ∨
        pre = before ++ [.continuation m (Config.maxLen m)]) ∧
      ∃ i : Instr, i.wf = true ∧ i.table = some m ∧ dataLen i = some n ∧
        symbolBits (.continuation m n) = encode .cont ++ encode i)

/-- No concatenation of streams (`70_reset_and_hazards.md` section 3), with the spec's own decision D6 (log entry 18). -/
def Obligations.ConcatenatedStreamsArePadding : Prop :=
  ∀ (b1 b2 : Bits) (strict : Bool),
    decompress (compress b1 ++ compress b2) strict = (b1, if strict then .padding else .ok, true)

/-- What the caller sees of a stream cut short (`60_exceptions.md` section 4), with the spec's own decision D18 (log
entry 21). -/
def Obligations.CutStreamIsTruncated : Prop :=
  ∀ (b : Bits) (k : Nat) (strict : Bool), k < (compress b).length → ∃ o : Bits,
    decompress ((compress b).take k) strict = (o, .truncated, false) ∧ o <+: b

/-- The numeric codes, the spec's own decision D12 (log entry 25). -/
def Obligations.StatusCodes : Prop :=
  Status.idle.code = 0 ∧ Status.run.code = 1 ∧ Status.ok.code = 2 ∧ Status.truncated.code = 3 ∧
  Status.padding.code = 4 ∧ Phase.idle.code = 0 ∧ Phase.run.code = 1 ∧ Phase.done.code = 2 ∧
  Cause.code none = 0 ∧ Cause.code (some .truncatedStream) = 1 ∧ Cause.code (some .paddingError) = 2
end

