-- ==== Sys2Proof/Laws/Bits.lean ====
section
/-! SUPPORT. Bit strings and numerals, the byte buffer, and the pure reading operations. -/

namespace Sys2Proof.Machine

/-! ## Numerals -/

@[simp] theorem bin_length (w v : Nat) : (bin w v).length = w := by
  induction w with
  | zero => rfl
  | succ w ih => simp [bin, ih]

@[simp] theorem natOfBits_nil : natOfBits [] = 0 := rfl

theorem foldl_bits (bs : Bits) (a : Nat) :
    bs.foldl (fun a b => 2 * a + b.toNat) a = a * 2 ^ bs.length + natOfBits bs := by
  induction bs generalizing a with
  | nil => simp
  | cons b bs ih =>
    simp only [natOfBits, List.foldl_cons, List.length_cons]
    rw [ih, ih (2 * 0 + b.toNat)]
    ring

theorem natOfBits_append (as bs : Bits) :
    natOfBits (as ++ bs) = natOfBits as * 2 ^ bs.length + natOfBits bs := by
  simp only [natOfBits, List.foldl_append]
  exact foldl_bits bs _

theorem natOfBits_cons (b : Bool) (bs : Bits) :
    natOfBits (b :: bs) = b.toNat * 2 ^ bs.length + natOfBits bs := by
  simpa [natOfBits] using natOfBits_append [b] bs

theorem natOfBits_lt (bs : Bits) : natOfBits bs < 2 ^ bs.length := by
  induction bs with
  | nil => simp
  | cons b bs ih =>
    rw [natOfBits_cons, List.length_cons, pow_succ]
    cases b <;> simp <;> omega

/-- The numeral of `v` in `w` bits denotes `v` modulo `2^w` (R13, R86). -/
theorem natOfBits_bin (w v : Nat) : natOfBits (bin w v) = v % 2 ^ w := by
  induction w with
  | zero => simp [bin, Nat.mod_one]
  | succ w ih =>
    have top : (v.testBit w).toNat = v / 2 ^ w % 2 := by
      rw [Nat.testBit_eq_decide_div_mod_eq]
      have := Nat.mod_two_eq_zero_or_one (v / 2 ^ w)
      rcases this with h | h <;> simp [h]
    rw [bin, natOfBits_cons, ih, bin_length, top, Nat.mod_pow_succ]
    ring

theorem natOfBits_replicate_false (n : Nat) : natOfBits (List.replicate n false) = 0 := by
  induction n with
  | zero => rfl
  | succ n ih => simp [List.replicate_succ, natOfBits_cons, ih]

/-- A bit string is the numeral of the number it denotes. -/
theorem bin_natOfBits (bs : Bits) : bin bs.length (natOfBits bs) = bs := by
  have shifted : ∀ (bs : Bits) (a : Nat), bin bs.length (a * 2 ^ bs.length + natOfBits bs) = bs := by
    intro bs
    induction bs with
    | nil => intro a; rfl
    | cons b bs ih =>
      intro a
      have hlt := natOfBits_lt bs
      have regroup : a * 2 ^ (bs.length + 1) + (b.toNat * 2 ^ bs.length + natOfBits bs)
          = (2 * a + b.toNat) * 2 ^ bs.length + natOfBits bs := by ring
      rw [List.length_cons, natOfBits_cons, regroup, bin, ih]
      congr 1
      rw [Nat.testBit_eq_decide_div_mod_eq, Nat.add_comm, Nat.add_mul_div_right _ _ (by positivity),
        Nat.div_eq_of_lt hlt]
      cases b <;> simp [Nat.add_mod]
  simpa using shifted bs 0

/-! ## Memory -/

@[simp] theorem Memory.cellsFrom_length (bs : List Byte) (a : Nat) :
    (Memory.cellsFrom a bs).length = bs.length := by
  induction bs generalizing a with
  | nil => rfl
  | cons b bs ih => simp [Memory.cellsFrom, ih]

@[simp] theorem Memory.size_ofBytes (bs : List Byte) : (Memory.ofBytes bs).size = bs.length :=
  Memory.cellsFrom_length bs 0

theorem Memory.wfFrom_cellsFrom (bs : List Byte) (a : Nat) :
    Memory.wfFrom a (Memory.cellsFrom a bs) = true := by
  induction bs generalizing a with
  | nil => rfl
  | cons b bs ih => simp [Memory.cellsFrom, Memory.wfFrom, ih]

/-- Loading a buffer, the one operation that makes a memory, gives the canonical form. -/
theorem Memory.wf_ofBytes (bs : List Byte) : (Memory.ofBytes bs).wf = true :=
  Memory.wfFrom_cellsFrom bs 0

/-- The memory before any buffer is loaded has the canonical form. -/
theorem Memory.wf_nil : Memory.wf [] = true := rfl

@[simp] theorem Memory.bytes_ofBytes (bs : List Byte) : (Memory.ofBytes bs).bytes = bs := by
  have cells : ∀ a, (Memory.cellsFrom a bs).map Prod.snd = bs := by
    induction bs with
    | nil => intro a; rfl
    | cons b bs ih => intro a; simp [Memory.cellsFrom, ih]
  exact cells 0

theorem Memory.byte?_cellsFrom (bs : List Byte) (a i : Nat) :
    (Memory.cellsFrom a bs).byte? (a + i) = bs[i]? := by
  induction bs generalizing a i with
  | nil => rfl
  | cons b bs ih =>
    cases i with
    | zero => simp [Memory.cellsFrom, Memory.byte?]
    | succ i =>
      have hne : ¬ a = a + (i + 1) := by omega
      have hadd : a + (i + 1) = (a + 1) + i := by omega
      rw [Memory.cellsFrom, Memory.byte?, if_neg hne, hadd, ih]
      simp

/-- Byte `i` of a loaded buffer is byte `i` of the byte sequence (R12). -/
theorem Memory.byte?_ofBytes (bs : List Byte) (i : Nat) : (Memory.ofBytes bs).byte? i = bs[i]? := by
  simpa [Memory.ofBytes] using Memory.byte?_cellsFrom bs 0 i

/-- A memory in canonical form is the load of its bytes: equal contents are equal data. -/
theorem Memory.ofBytes_bytes (m : Memory) (h : m.wf = true) : Memory.ofBytes m.bytes = m := by
  have cells : ∀ (m : Memory) (a : Nat), Memory.wfFrom a m = true →
      Memory.cellsFrom a (m.map Prod.snd) = m := by
    intro m
    induction m with
    | nil => intro a _; rfl
    | cons c m ih =>
      intro a h
      obtain ⟨b, v⟩ := c
      simp only [Memory.wfFrom, Bool.and_eq_true, beq_iff_eq] at h
      obtain ⟨rfl, hm⟩ := h
      simp [Memory.cellsFrom, ih _ hm]
  exact cells m 0 h

/-! ## Reading -/

@[simp] theorem bitsAt_length (m : Memory) (pos n : Nat) : (bitsAt m pos n).length = n := by
  induction n generalizing pos with
  | zero => rfl
  | succ n ih => simp [bitsAt, ih]

/-- Mixed-width access sees one bit string (R49). -/
theorem bitsAt_add (m : Memory) (pos a b : Nat) :
    bitsAt m pos (a + b) = bitsAt m pos a ++ bitsAt m (pos + a) b := by
  induction a generalizing pos with
  | zero => simp [bitsAt]
  | succ a ih =>
    have hadd : a + 1 + b = (a + b) + 1 := by omega
    have hpos : pos + (a + 1) = pos + 1 + a := by omega
    rw [hadd, bitsAt, ih, bitsAt, hpos]
    rfl

theorem bitsAt_getElem (m : Memory) (pos n j : Nat) (h : j < (bitsAt m pos n).length) :
    (bitsAt m pos n)[j] = bitAt m (pos + j) := by
  induction n generalizing pos j with
  | zero => simp at h
  | succ n ih =>
    cases j with
    | zero => simp [bitsAt]
    | succ j =>
      simp only [bitsAt, List.getElem_cons_succ]
      rw [ih]
      congr 1
      omega

theorem takeBits_eq_none (m : Memory) (pos w : Nat) : takeBits m pos w = none ↔ 8 * m.size < pos + w := by
  unfold takeBits
  split <;> simp_all

/-- A successful read: the bits were there, the value is theirs, the position moves by the width (R90). -/
theorem takeBits_eq_some (m : Memory) (pos w v p : Nat) :
    takeBits m pos w = some (v, p) ↔
      pos + w ≤ 8 * m.size ∧ v = natOfBits (bitsAt m pos w) ∧ p = pos + w := by
  unfold takeBits memRead
  split <;> simp <;> omega

theorem finishReadAt_eq_ok (m : Memory) (pos : Nat) :
    finishReadAt m pos = .ok ↔ ∀ b ∈ bitsAt m pos (8 * m.size - pos), b = false := by
  unfold finishReadAt
  split <;> simp_all

end Sys2Proof.Machine
end

