-- ==== Sys2Proof/Laws/Decode.lean ====
section
/-! SUPPORT. What the leading-zero count of `ParsePattern` can answer, and the positions `decode` answers. -/

namespace Sys2Proof

open Machine

/-- One turn of the count (R75): a 1 ends it, a 0 goes on, the end of the buffer stops it. -/
theorem countZeros_succ (m : Memory) (left z pos : Nat) :
    countZeros m (left + 1) z pos =
      if 8 * m.size < pos + 1 then .error pos
      else if bitAt m pos then .ok (z, pos + 1) else countZeros m left (z + 1) (pos + 1) := by
  rw [countZeros]
  unfold takeBits memRead
  split
  · rename_i h
    split at h <;> simp_all
  · rename_i b p h
    split at h
    · simp at h
    · simp only [Option.some.injEq, Prod.mk.injEq] at h
      obtain ⟨rfl, rfl⟩ := h
      cases hb : bitAt m pos <;> simp [bitsAt, natOfBits, *]

/-- Everything an ended count says: a 1 after fewer than `left` zeros, consumed, or `left` zeros. -/
theorem countZeros_eq_ok {m : Memory} {left z pos z' p : Nat} (h : countZeros m left z pos = .ok (z', p)) :
    (∃ k, k < left ∧ z' = z + k ∧ p = pos + k + 1 ∧ p ≤ 8 * m.size ∧
      bitsAt m pos (k + 1) = List.replicate k false ++ [true]) ∨
    (z' = z + left ∧ p = pos + left ∧ (left = 0 ∨ p ≤ 8 * m.size) ∧
      bitsAt m pos left = List.replicate left false) := by
  induction left generalizing z pos with
  | zero =>
    simp only [countZeros, Except.ok.injEq, Prod.mk.injEq] at h
    exact .inr ⟨by omega, by omega, .inl rfl, rfl⟩
  | succ left ih =>
    rw [countZeros_succ] at h
    split at h
    · simp at h
    · rename_i hin
      split at h
      · rename_i hb
        simp only [Except.ok.injEq, Prod.mk.injEq] at h
        exact .inl ⟨0, by omega, by omega, by omega, by omega, by simp [bitsAt, hb]⟩
      · rename_i hb
        have hb : bitAt m pos = false := by simpa using hb
        rcases ih h with ⟨k, hk, hz, hp, hle, hbits⟩ | ⟨hz, hp, hle, hbits⟩
        · refine .inl ⟨k + 1, by omega, by omega, by omega, hle, ?_⟩
          rw [bitsAt, hbits, hb]
          rfl
        · refine .inr ⟨by omega, by omega, .inr (by omega), ?_⟩
          rw [bitsAt, hbits, hb]
          rfl

/-- A 1 after `k` zeros, inside the buffer, ends the count at `k` with the 1 consumed. -/
theorem countZeros_terminated {m : Memory} {left z pos k : Nat} (hk : k < left)
    (hle : pos + k + 1 ≤ 8 * m.size) (hbits : bitsAt m pos (k + 1) = List.replicate k false ++ [true]) :
    countZeros m left z pos = .ok (z + k, pos + k + 1) := by
  induction k generalizing left z pos with
  | zero =>
    obtain ⟨left, rfl⟩ : ∃ l, left = l + 1 := ⟨left - 1, by omega⟩
    have hb : bitAt m pos = true := by simpa [bitsAt] using hbits
    rw [countZeros_succ, if_neg (by omega), if_pos hb]
    rfl
  | succ k ih =>
    obtain ⟨left, rfl⟩ : ∃ l, left = l + 1 := ⟨left - 1, by omega⟩
    rw [bitsAt, List.replicate_succ, List.cons_append, List.cons.injEq] at hbits
    rw [countZeros_succ, if_neg (by omega), if_neg (by simp [hbits.1]), ih (by omega) (by omega) hbits.2]
    simp only [Except.ok.injEq, Prod.mk.injEq]
    omega

/-- `left` zeros inside the buffer end the count at `left`. -/
theorem countZeros_zeros {m : Memory} {left z pos : Nat} (hle : pos + left ≤ 8 * m.size)
    (hbits : bitsAt m pos left = List.replicate left false) :
    countZeros m left z pos = .ok (z + left, pos + left) := by
  induction left generalizing z pos with
  | zero => rfl
  | succ left ih =>
    rw [bitsAt, List.replicate_succ, List.cons.injEq] at hbits
    rw [countZeros_succ, if_neg (by omega), if_neg (by simp [hbits.1]), ih (by omega) hbits.2]
    simp only [Except.ok.injEq, Prod.mk.injEq]
    omega

/-- The end of the buffer struck: the position is where the buffer ends, and only zeros were read. -/
theorem countZeros_eq_error {m : Memory} {left z pos p : Nat} (h : countZeros m left z pos = .error p) :
    pos ≤ p ∧ p < pos + left ∧ 8 * m.size ≤ p ∧ (pos = p ∨ p = 8 * m.size) ∧
      bitsAt m pos (p - pos) = List.replicate (p - pos) false := by
  induction left generalizing z pos with
  | zero => simp [countZeros] at h
  | succ left ih =>
    rw [countZeros_succ] at h
    split at h
    · simp only [Except.error.injEq] at h
      subst h
      exact ⟨le_refl _, by omega, by omega, .inl rfl, by simp [bitsAt]⟩
    · rename_i hin
      split at h
      · simp at h
      · rename_i hb
        obtain ⟨h1, h2, h3, h4, h5⟩ := ih h
        have hb : bitAt m pos = false := by simpa using hb
        have hsub : p - pos = (p - (pos + 1)) + 1 := by omega
        refine ⟨by omega, by omega, h3, .inr (by omega), ?_⟩
        rw [hsub, bitsAt, h5, hb]
        rfl

/-- A decoded pattern ends after its start and inside the buffer (R76). -/
theorem decode_pattern_bounds {tbl : Mode} {m : Memory} {pos p : Nat} {i : Instr}
    (h : decode tbl m pos = .pattern i p) : pos < p ∧ p ≤ 8 * m.size := by
  unfold decode at h
  split at h
  · simp at h
  · rename_i z q hc
    have hc := countZeros_eq_ok hc
    simp only [Config.zMax] at hc
    split at h
    · rename_i hz
      cases tbl with
      | mode0 =>
        simp only at h
        split at h
        · simp at h
        · rename_i x p' ht
          rw [takeBits_eq_some] at ht
          simp only [Parse.pattern.injEq] at h
          rcases hc with ⟨k, _, _, hq, _⟩ | ⟨_, hq, _⟩ <;> omega
      | mode1 =>
        simp only [Parse.pattern.injEq] at h
        rcases hc with ⟨k, _, _, hq, _⟩ | ⟨hz', hq, _⟩ <;> omega
    · rename_i hz
      split at h
      · simp at h
      · rename_i x p' ht
        rw [takeBits_eq_some] at ht
        simp only [Parse.pattern.injEq] at h
        rcases hc with ⟨k, _, _, hq, _⟩ | ⟨_, hq, _⟩ <;> omega

/-- Where the end of the buffer strikes, the position has not passed it, unless it began there (R76, R91). -/
theorem decode_endOfInput_bounds {tbl : Mode} {m : Memory} {pos p : Nat}
    (h : decode tbl m pos = .endOfInput p) : pos ≤ p ∧ (p ≤ 8 * m.size ∨ p = pos) := by
  unfold decode at h
  split at h
  · rename_i q hc
    have hc := countZeros_eq_error hc
    simp only [Parse.endOfInput.injEq] at h
    omega
  · rename_i z q hc
    have hc := countZeros_eq_ok hc
    simp only [Config.zMax] at hc
    have bound : pos ≤ q ∧ q ≤ 8 * m.size := by
      rcases hc with ⟨k, _, _, hq, hle, _⟩ | ⟨_, hq, hle, _⟩
      · omega
      · rcases hle with h0 | hle
        · omega
        · omega
    split at h
    · cases tbl with
      | mode0 =>
        simp only at h
        split at h <;> simp at h
        omega
      | mode1 => simp at h
    · split at h <;> simp at h
      omega

end Sys2Proof
end

