-- ==== Sys2Proof/Laws/State.lean ====
section
/-! SUPPORT. One lemma per field per named update of the state, each true by `rfl`. -/

namespace Sys2Proof.Machine

@[simp] theorem Dec.setHold_mode (d : Dec) : d.setHold.mode = d.mode := rfl
@[simp] theorem Dec.setHold_runMode (d : Dec) : d.setHold.runMode = d.runMode := rfl
@[simp] theorem Dec.setHold_hold (d : Dec) : d.setHold.hold = true := rfl
@[simp] theorem Dec.setHold_strict (d : Dec) : d.setHold.strict = d.strict := rfl
@[simp] theorem Dec.setHold_status (d : Dec) : d.setHold.status = d.status := rfl
@[simp] theorem Dec.setHold_padNz (d : Dec) : d.setHold.padNz = d.padNz := rfl
@[simp] theorem Dec.setHold_out (d : Dec) : d.setHold.out = d.out := rfl
@[simp] theorem Dec.setHold_bsr (d : Dec) : d.setHold.bsr = d.bsr := rfl

@[simp] theorem Dec.flipMode_mode (d : Dec) : d.flipMode.mode = d.mode.other := rfl
@[simp] theorem Dec.flipMode_runMode (d : Dec) : d.flipMode.runMode = d.runMode := rfl
@[simp] theorem Dec.flipMode_hold (d : Dec) : d.flipMode.hold = d.hold := rfl
@[simp] theorem Dec.flipMode_strict (d : Dec) : d.flipMode.strict = d.strict := rfl
@[simp] theorem Dec.flipMode_status (d : Dec) : d.flipMode.status = d.status := rfl
@[simp] theorem Dec.flipMode_padNz (d : Dec) : d.flipMode.padNz = d.padNz := rfl
@[simp] theorem Dec.flipMode_out (d : Dec) : d.flipMode.out = d.out := rfl
@[simp] theorem Dec.flipMode_bsr (d : Dec) : d.flipMode.bsr = d.bsr := rfl

@[simp] theorem Dec.finish_mode (d : Dec) (st : Status) (nz : Bool) : (d.finish st nz).mode = d.mode := rfl
@[simp] theorem Dec.finish_runMode (d : Dec) (st : Status) (nz : Bool) : (d.finish st nz).runMode = d.runMode := rfl
@[simp] theorem Dec.finish_hold (d : Dec) (st : Status) (nz : Bool) : (d.finish st nz).hold = d.hold := rfl
@[simp] theorem Dec.finish_strict (d : Dec) (st : Status) (nz : Bool) : (d.finish st nz).strict = d.strict := rfl
@[simp] theorem Dec.finish_status (d : Dec) (st : Status) (nz : Bool) : (d.finish st nz).status = st := rfl
@[simp] theorem Dec.finish_padNz (d : Dec) (st : Status) (nz : Bool) : (d.finish st nz).padNz = nz := rfl
@[simp] theorem Dec.finish_out (d : Dec) (st : Status) (nz : Bool) : (d.finish st nz).out = d.out := rfl
@[simp] theorem Dec.finish_bsr (d : Dec) (st : Status) (nz : Bool) : (d.finish st nz).bsr = d.bsr := rfl

@[simp] theorem Dec.ordinary_mode (d : Dec) (n : Nat) : (d.ordinary n).mode = d.mode.other := rfl
@[simp] theorem Dec.ordinary_runMode (d : Dec) (n : Nat) : (d.ordinary n).runMode = d.mode := rfl
@[simp] theorem Dec.ordinary_hold (d : Dec) (n : Nat) : (d.ordinary n).hold = d.hold := rfl
@[simp] theorem Dec.ordinary_strict (d : Dec) (n : Nat) : (d.ordinary n).strict = d.strict := rfl
@[simp] theorem Dec.ordinary_status (d : Dec) (n : Nat) : (d.ordinary n).status = d.status := rfl
@[simp] theorem Dec.ordinary_padNz (d : Dec) (n : Nat) : (d.ordinary n).padNz = d.padNz := rfl
@[simp] theorem Dec.ordinary_out (d : Dec) (n : Nat) : (d.ordinary n).out = d.out ++ List.replicate n d.mode.bit := rfl
@[simp] theorem Dec.ordinary_bsr (d : Dec) (n : Nat) : (d.ordinary n).bsr = d.bsr := rfl

@[simp] theorem Dec.continued_mode (d : Dec) (n : Nat) : (d.continued n).mode = d.mode := rfl
@[simp] theorem Dec.continued_runMode (d : Dec) (n : Nat) : (d.continued n).runMode = d.runMode := rfl
@[simp] theorem Dec.continued_hold (d : Dec) (n : Nat) : (d.continued n).hold = false := rfl
@[simp] theorem Dec.continued_strict (d : Dec) (n : Nat) : (d.continued n).strict = d.strict := rfl
@[simp] theorem Dec.continued_status (d : Dec) (n : Nat) : (d.continued n).status = d.status := rfl
@[simp] theorem Dec.continued_padNz (d : Dec) (n : Nat) : (d.continued n).padNz = d.padNz := rfl
@[simp] theorem Dec.continued_out (d : Dec) (n : Nat) : (d.continued n).out = d.out ++ List.replicate n d.runMode.bit := rfl
@[simp] theorem Dec.continued_bsr (d : Dec) (n : Nat) : (d.continued n).bsr = d.bsr := rfl

@[simp] theorem State.withDec_enc (s : State) (d : Dec) : (s.withDec d).enc = s.enc := rfl
@[simp] theorem State.withDec_dec (s : State) (d : Dec) : (s.withDec d).dec = d := rfl
@[simp] theorem State.withDec_inputs (s : State) (d : Dec) : (s.withDec d).inputs = s.inputs := rfl

@[simp] theorem State.withEnc_enc (s : State) (e : Enc) : (s.withEnc e).enc = e := rfl
@[simp] theorem State.withEnc_dec (s : State) (e : Enc) : (s.withEnc e).dec = s.dec := rfl
@[simp] theorem State.withEnc_inputs (s : State) (e : Enc) : (s.withEnc e).inputs = s.inputs := rfl

@[simp] theorem State.withInputs_enc (s : State) (l : List Input) : (s.withInputs l).enc = s.enc := rfl
@[simp] theorem State.withInputs_dec (s : State) (l : List Input) : (s.withInputs l).dec = s.dec := rfl
@[simp] theorem State.withInputs_inputs (s : State) (l : List Input) : (s.withInputs l).inputs = l := rfl

@[simp] theorem State.seek_enc (s : State) (p : Nat) : (s.seek p).enc = s.enc := rfl
@[simp] theorem State.seek_inputs (s : State) (p : Nat) : (s.seek p).inputs = s.inputs := rfl
@[simp] theorem State.seek_dec_mode (s : State) (p : Nat) : (s.seek p).dec.mode = s.dec.mode := rfl
@[simp] theorem State.seek_dec_runMode (s : State) (p : Nat) : (s.seek p).dec.runMode = s.dec.runMode := rfl
@[simp] theorem State.seek_dec_hold (s : State) (p : Nat) : (s.seek p).dec.hold = s.dec.hold := rfl
@[simp] theorem State.seek_dec_strict (s : State) (p : Nat) : (s.seek p).dec.strict = s.dec.strict := rfl
@[simp] theorem State.seek_dec_status (s : State) (p : Nat) : (s.seek p).dec.status = s.dec.status := rfl
@[simp] theorem State.seek_dec_padNz (s : State) (p : Nat) : (s.seek p).dec.padNz = s.dec.padNz := rfl
@[simp] theorem State.seek_dec_out (s : State) (p : Nat) : (s.seek p).dec.out = s.dec.out := rfl
@[simp] theorem State.seek_buf (s : State) (p : Nat) : (s.seek p).dec.bsr.buf = s.dec.bsr.buf := rfl
@[simp] theorem State.seek_mem (s : State) (p : Nat) : (s.seek p).dec.bsr.mem = s.dec.bsr.mem := rfl
@[simp] theorem State.seek_rPos (s : State) (p : Nat) : (s.seek p).dec.bsr.rPos = p := rfl
@[simp] theorem State.seek_tableOf (s : State) (p : Nat) : tableOf (s.seek p).dec = tableOf s.dec := rfl
@[simp] theorem State.withDec_withDec (s : State) (d d' : Dec) : (s.withDec d).withDec d' = s.withDec d' := rfl
@[simp] theorem State.withEnc_withEnc (s : State) (e e' : Enc) : (s.withEnc e).withEnc e' = s.withEnc e' := rfl
@[simp] theorem State.withInputs_withInputs (s : State) (l l' : List Input) :
    (s.withInputs l).withInputs l' = s.withInputs l' := rfl
@[simp] theorem State.withDec_self (s : State) : s.withDec s.dec = s := rfl
@[simp] theorem State.withEnc_self (s : State) : s.withEnc s.enc = s := rfl
@[simp] theorem State.withInputs_self (s : State) : s.withInputs s.inputs = s := rfl
theorem State.withDec_withEnc (s : State) (d : Dec) (e : Enc) :
    (s.withDec d).withEnc e = (s.withEnc e).withDec d := rfl
theorem State.withInputs_withDec (s : State) (l : List Input) (d : Dec) :
    (s.withInputs l).withDec d = (s.withDec d).withInputs l := rfl
theorem State.withInputs_withEnc (s : State) (l : List Input) (e : Enc) :
    (s.withInputs l).withEnc e = (s.withEnc e).withInputs l := rfl

@[simp] theorem Dec.started_mode (buf : List Byte) (strict : Bool) : (Dec.started buf strict).mode = .mode0 := rfl
@[simp] theorem Dec.started_runMode (buf : List Byte) (strict : Bool) : (Dec.started buf strict).runMode = .mode0 := rfl
@[simp] theorem Dec.started_hold (buf : List Byte) (strict : Bool) : (Dec.started buf strict).hold = false := rfl
@[simp] theorem Dec.started_strict (buf : List Byte) (strict : Bool) : (Dec.started buf strict).strict = strict := rfl
@[simp] theorem Dec.started_status (buf : List Byte) (strict : Bool) : (Dec.started buf strict).status = .run := rfl
@[simp] theorem Dec.started_padNz (buf : List Byte) (strict : Bool) : (Dec.started buf strict).padNz = false := rfl
@[simp] theorem Dec.started_out (buf : List Byte) (strict : Bool) : (Dec.started buf strict).out = [] := rfl
@[simp] theorem Dec.started_rPos (buf : List Byte) (strict : Bool) : (Dec.started buf strict).bsr.rPos = 0 := rfl
@[simp] theorem Dec.started_mem (buf : List Byte) (strict : Bool) :
    (Dec.started buf strict).bsr.mem = Memory.ofBytes buf := rfl
@[simp] theorem Enc.started_mode : Enc.started.mode = .mode0 := rfl
@[simp] theorem Enc.started_haveRun : Enc.started.haveRun = false := rfl
@[simp] theorem Enc.started_val : Enc.started.val = false := rfl
@[simp] theorem Enc.started_len : Enc.started.len = 0 := rfl
@[simp] theorem Enc.started_phase : Enc.started.phase = .run := rfl
@[simp] theorem Enc.started_bsw : Enc.started.bsw = Bsw.reset := rfl

end Sys2Proof.Machine
end

