-- ==== Sys2Proof/Laws/Ops.lean ====
section
/-! SUPPORT. What each shared operation can do, said once. -/

namespace Sys2Proof.Machine

/-! ## Mode and table -/

@[simp] theorem Mode.other_other (m : Mode) : m.other.other = m := by cases m <;> rfl
@[simp] theorem Mode.ofBit_bit (b : Bool) : (Mode.ofBit b).bit = b := by cases b <;> rfl
@[simp] theorem Mode.ofBit_of_bit (m : Mode) : Mode.ofBit m.bit = m := by cases m <;> rfl
@[simp] theorem Mode.ofBit_not (b : Bool) : Mode.ofBit (!b) = (Mode.ofBit b).other := by cases b <;> rfl

theorem tableOf_hold {d : Dec} (h : d.hold = true) : tableOf d = d.runMode := by simp [tableOf, h]
theorem tableOf_no_hold {d : Dec} (h : d.hold = false) : tableOf d = d.mode := by simp [tableOf, h]

/-! ## The write half -/

theorem putString_nil (b : Bsw) : putString [] b = b := rfl
theorem putString_cons (v : Bool) (bs : Bits) (b : Bsw) : putString (v :: bs) b = putString bs (b.putBit v) := rfl

theorem putString_append (as bs : Bits) (b : Bsw) :
    putString (as ++ bs) b = putString bs (putString as b) := List.foldl_append

/-- The loop of R86 shifts in the numeral of the value. -/
theorem putBits_eq_putString (v w : Nat) (b : Bsw) : b.putBits v w = putString (bin w v) b := by
  induction w generalizing b with
  | zero => rfl
  | succ w ih => simp [Bsw.putBits, bin, putString_cons, ih]

@[simp] theorem Bsw.putBit_fin (b : Bsw) (v : Bool) : (b.putBit v).fin = b.fin := by
  unfold Bsw.putBit
  simp only
  split <;> rfl

@[simp] theorem putString_fin (bs : Bits) (b : Bsw) : (putString bs b).fin = b.fin := by
  induction bs generalizing b with
  | nil => rfl
  | cons v bs ih => simp [putString_cons, ih]

/-- Bytes emitted are never revised (R38). -/
theorem Bsw.putBit_out (b : Bsw) (v : Bool) : b.out <+: (b.putBit v).out := by
  unfold Bsw.putBit
  simp only
  split
  · exact List.prefix_append _ _
  · exact List.prefix_refl _

theorem putString_out (bs : Bits) (b : Bsw) : b.out <+: (putString bs b).out := by
  induction bs generalizing b with
  | nil => exact List.prefix_refl _
  | cons v bs ih => exact (b.putBit_out v).trans (ih _)

/-- If `write_bits` answers, it was in range and not finished, and the numeral was shifted in. -/
theorem writeBits_eq_ok {v w : Nat} {b b' : Bsw} :
    writeBits v w b = .ok b' ↔ w ≤ 24 ∧ b.fin = false ∧ b' = putString (bin w v) b := by
  unfold writeBits
  rw [putBits_eq_putString]
  by_cases hw : 24 < w
  · rw [if_pos hw]
    exact ⟨fun h => by simp at h, fun h => by omega⟩
  · rw [if_neg hw]
    cases hf : b.fin with
    | true => simp
    | false =>
      simp only [Bool.false_eq_true, if_false, Except.ok.injEq, true_and]
      exact ⟨fun h => ⟨by omega, h.symm⟩, fun h => h.2.symm⟩

/-- `Emit(p)` writes the bits of `p` (R87). -/
theorem emit_eq_ok {p : Bits} {b b' : Bsw} :
    emit p b = .ok b' ↔ p.length ≤ 24 ∧ b.fin = false ∧ b' = putString p b := by
  rw [emit, writeBits_eq_ok, bin_natOfBits]

/-- If `finish_write` answers, it had not been called, and the partial byte, if any, was padded (R88). -/
theorem finishWrite_eq_ok {b b' : Bsw} :
    finishWrite b = .ok b' ↔ b.fin = false ∧
      ((b.cnt = 0 ∧ b' = { b with fin := true }) ∨
       (b.cnt ≠ 0 ∧ b' = { acc := 0, cnt := 0, fin := true, out := b.out ++ [b.acc <<< (8 - b.cnt.toNat)] })) := by
  unfold finishWrite
  cases hf : b.fin with
  | true => simp
  | false =>
    simp only [Bool.false_eq_true, if_false, true_and]
    by_cases hc : b.cnt = 0
    · rw [if_pos hc, Except.ok.injEq]
      constructor
      · rintro rfl
        exact .inl ⟨hc, rfl⟩
      · rintro (⟨_, rfl⟩ | ⟨h, _⟩)
        · rfl
        · exact absurd hc h
    · rw [if_neg hc, Except.ok.injEq]
      constructor
      · rintro rfl
        exact .inr ⟨hc, rfl⟩
      · rintro (⟨h, _⟩ | ⟨_, rfl⟩)
        · exact absurd h hc
        · rfl

/-! ## The read half -/

theorem readBits_eq_ok {w : Nat} {r : Bsr} {x : ReadResult} :
    readBits w r = .ok x ↔ w ≤ 24 ∧
      ((8 * r.mem.size < r.rPos + w ∧ x = .endOfInput r) ∨
       (r.rPos + w ≤ 8 * r.mem.size ∧ x = .bits (memRead r.mem r.rPos w) { r with rPos := r.rPos + w })) := by
  unfold readBits takeBits
  by_cases hw : 24 < w
  · rw [if_pos hw]
    simp
    omega
  · rw [if_neg hw]
    by_cases hend : 8 * r.mem.size < r.rPos + w
    · rw [if_pos hend]
      simp only [Except.ok.injEq]
      constructor
      · rintro rfl
        exact ⟨by omega, .inl ⟨hend, rfl⟩⟩
      · rintro ⟨_, ⟨_, rfl⟩ | ⟨h, _⟩⟩
        · rfl
        · omega
    · rw [if_neg hend]
      simp only [Except.ok.injEq]
      constructor
      · rintro rfl
        exact ⟨by omega, .inr ⟨by omega, rfl⟩⟩
      · rintro ⟨_, ⟨h, _⟩ | ⟨_, rfl⟩⟩
        · omega
        · rfl

/-! ## Executing and ending -/

/-- `ExecData(n)` as one next state (R165). -/
theorem execData_eq (n : Nat) (s : State) : execData n s = .next (afterData n s) := by
  unfold execData Dec.data afterData
  split <;> rename_i h
  · simp [Dec.continued, State.withDec, tableOf, h]
  · have h : s.dec.hold = false := by simpa using h
    simp [Dec.ordinary, State.withDec, tableOf, h]

/-- Everything `Terminate()` can do (R173). -/
theorem terminate_cases (s : State) :
    (finishRead s.dec.bsr = .ok ∧ terminate s = s.withDec (s.dec.finish .ok false)) ∨
    (finishRead s.dec.bsr = .paddingError ∧ s.dec.strict = true ∧
      terminate s = s.withDec (s.dec.finish .padding true)) ∨
    (finishRead s.dec.bsr = .paddingError ∧ s.dec.strict = false ∧
      terminate s = s.withDec (s.dec.finish .ok true)) := by
  unfold terminate raise
  cases h : finishRead s.dec.bsr with
  | ok => exact .inl ⟨rfl, rfl⟩
  | paddingError =>
    cases hs : s.dec.strict with
    | false => exact .inr (.inr ⟨rfl, rfl, by simp⟩)
    | true => exact .inr (.inl ⟨rfl, rfl, by simp⟩)

/-- Everything an instruction can do: data, the marker, the toggle, or the end of the call. -/
theorem exec_cases (i : Instr) (s : State) :
    (∃ n, dataLen i = some n ∧ exec i s = .next (afterData n s)) ∨
    (i = .cont ∧ exec i s = .next (s.withDec s.dec.setHold)) ∨
    (i = .mchg ∧ exec i s = .next (s.withDec s.dec.flipMode)) ∨
    (i = .term ∧ exec i s = .next (terminate s)) := by
  cases i with
  | cont => exact .inr (.inl ⟨rfl, rfl⟩)
  | mchg => exact .inr (.inr (.inl ⟨rfl, rfl⟩))
  | term => exact .inr (.inr (.inr ⟨rfl, rfl⟩))
  | z0 x => exact .inl ⟨_, rfl, execData_eq _ _⟩
  | z1 x => exact .inl ⟨_, rfl, execData_eq _ _⟩
  | z2 x => exact .inl ⟨_, rfl, execData_eq _ _⟩
  | z3 x => exact .inl ⟨_, rfl, execData_eq _ _⟩
  | z4 x => exact .inl ⟨_, rfl, execData_eq _ _⟩
  | z5 x => exact .inl ⟨_, rfl, execData_eq _ _⟩
  | z6 x => exact .inl ⟨_, rfl, execData_eq _ _⟩
  | z7 x => exact .inl ⟨_, rfl, execData_eq _ _⟩
  | z8 x => exact .inl ⟨_, rfl, execData_eq _ _⟩
  | z9 x => exact .inl ⟨_, rfl, execData_eq _ _⟩
  | z10 x => exact .inl ⟨_, rfl, execData_eq _ _⟩
  | z11 x => exact .inl ⟨_, rfl, execData_eq _ _⟩
  | zov x => exact .inl ⟨_, rfl, execData_eq _ _⟩
  | o1 => exact .inl ⟨_, rfl, execData_eq _ _⟩
  | o2 => exact .inl ⟨_, rfl, execData_eq _ _⟩
  | o3 => exact .inl ⟨_, rfl, execData_eq _ _⟩
  | o4 => exact .inl ⟨_, rfl, execData_eq _ _⟩
  | o5 => exact .inl ⟨_, rfl, execData_eq _ _⟩
  | o6 => exact .inl ⟨_, rfl, execData_eq _ _⟩
  | o7 => exact .inl ⟨_, rfl, execData_eq _ _⟩
  | o8 => exact .inl ⟨_, rfl, execData_eq _ _⟩
  | o9 => exact .inl ⟨_, rfl, execData_eq _ _⟩
  | o10 => exact .inl ⟨_, rfl, execData_eq _ _⟩
  | o11 => exact .inl ⟨_, rfl, execData_eq _ _⟩
  | o12 => exact .inl ⟨_, rfl, execData_eq _ _⟩
  | oov x => exact .inl ⟨_, rfl, execData_eq _ _⟩

/-- Everything `DecStep` can do (R164): a pattern executed at the position after it, or the trap. -/
theorem decStep_cases (s : State) :
    (∃ i p, decode (tableOf s.dec) s.dec.bsr.mem s.dec.bsr.rPos = .pattern i p ∧ decStep s = exec i (s.seek p)) ∨
    (∃ p, decode (tableOf s.dec) s.dec.bsr.mem s.dec.bsr.rPos = .endOfInput p ∧
      decStep s = .next (raise .truncatedStream (s.seek p))) := by
  unfold decStep fetch
  cases h : decode (tableOf s.dec) s.dec.bsr.mem s.dec.bsr.rPos with
  | pattern i p => exact .inl ⟨i, p, rfl, rfl⟩
  | endOfInput p => exact .inr ⟨p, rfl, rfl⟩

/-! ## The encoder -/

/-- If `Emit(EncodeLen(m, n))` answers, the length has a pattern and its bits were written. -/
theorem emitLen_eq_ok {m : Mode} {n : Nat} {b b' : Bsw} :
    emitLen m n b = .ok b' ↔ ∃ p, encodeLen m n = some p ∧ emit p b = .ok b' := by
  unfold emitLen
  cases encodeLen m n <;> simp

/-- Everything `EmitRun` can do: write its symbols and leave the mode of the next run (R148). -/
theorem emitRun_eq_ok {v : Bool} {n : Nat} {e e' : Enc} :
    emitRun v n e = .ok e' ↔ ∃ b, emitSymbols (emitRunSymbols e.mode v n) e.bsw = .ok b ∧
      e' = { e with bsw := b, mode := (Mode.ofBit v).other } := by
  unfold emitRun
  cases emitSymbols (emitRunSymbols e.mode v n) e.bsw <;> simp [eq_comm]

@[simp] theorem emitSymbol_ordinary (m : Mode) (n : Nat) (b : Bsw) :
    emitSymbol (.ordinary m n) b = emitLen m n b := rfl
@[simp] theorem emitSymbol_modeChange (b : Bsw) : emitSymbol .modeChange b = emit (encode .mchg) b := rfl
@[simp] theorem emitSymbol_termination (b : Bsw) : emitSymbol .termination b = emit (encode .term) b := rfl

/-- A continuation symbol is the marker and its value pattern (R70). -/
theorem emitSymbol_continuation {m : Mode} {n : Nat} {b b' : Bsw} :
    emitSymbol (.continuation m n) b = .ok b' ↔
      ∃ c, emit (encode .cont) b = .ok c ∧ emitLen m n c = .ok b' := by
  unfold emitSymbol
  cases emit (encode .cont) b <;> simp

@[simp] theorem emitSymbols_nil (b : Bsw) : emitSymbols [] b = .ok b := rfl

theorem emitSymbols_cons {y : Symbol} {ys : List Symbol} {b b' : Bsw} :
    emitSymbols (y :: ys) b = .ok b' ↔ ∃ c, emitSymbol y b = .ok c ∧ emitSymbols ys c = .ok b' := by
  rw [emitSymbols]
  cases emitSymbol y b <;> simp

/-- Everything `Finalize` can do (R150). -/
theorem finalize_eq_ok {e e' : Enc} :
    finalize e = .ok e' ↔ ∃ b b', emit (encode .term) e.bsw = .ok b ∧ finishWrite b = .ok b' ∧
      e' = { e with bsw := b', phase := .done } := by
  rw [finalize, emitSymbol_termination]
  cases he : emit (encode .term) e.bsw with
  | error r => simp
  | ok b =>
    simp only
    cases hf : finishWrite b with
    | error r =>
      constructor
      · intro h
        cases h
      · rintro ⟨_, b', ⟨⟩, hb', _⟩
        rw [hf] at hb'
        cases hb'
    | ok b' =>
      constructor
      · intro h
        exact ⟨b, b', rfl, hf, (Except.ok.inj h).symm⟩
      · rintro ⟨_, b'', ⟨⟩, hb'', rfl⟩
        rw [hf] at hb''
        cases hb''
        rfl

/-- A constant bit sequence is one run (R141). -/
theorem runsOf_replicate (v : Bool) (n : Nat) : runsOf (List.replicate (n + 1) v) = [(v, n + 1)] := by
  induction n with
  | zero => rfl
  | succ n ih => rw [List.replicate_succ, runsOf, ih]; simp

end Sys2Proof.Machine
end

