-- ==== Sys2Proof/Laws/PerInstr.lean ====
section
/-! SUPPORT. One lemma per instruction: its encoding is its row of `spec/opcode_table.json`. The columns
`length` and `match` are written out here from the table, apart from the encoder. -/

namespace Sys2Proof.Laws

open Machine

/-- The column `length`. -/
def rowLength : Instr → Nat
  | .z0 _ => 2
  | .z1 _ => 4
  | .z2 _ => 6
  | .z3 _ => 8
  | .z4 _ => 10
  | .z5 _ => 12
  | .z6 _ => 14
  | .z7 _ => 16
  | .z8 _ => 18
  | .z9 _ => 20
  | .z10 _ => 22
  | .z11 _ => 24
  | .zov _ => 24
  | .o1 => 1
  | .o2 => 2
  | .o3 => 3
  | .o4 => 4
  | .o5 => 5
  | .o6 => 6
  | .o7 => 7
  | .o8 => 8
  | .o9 => 9
  | .o10 => 10
  | .o11 => 11
  | .o12 => 12
  | .oov _ => 24
  | .cont => 24
  | .mchg => 24
  | .term => 24

/-- The column `match`: the pattern with its suffix zero, first bit most significant. -/
def rowMatch : Instr → Nat
  | .z0 _ => 0x2
  | .z1 _ => 0x4
  | .z2 _ => 0x8
  | .z3 _ => 0x10
  | .z4 _ => 0x20
  | .z5 _ => 0x40
  | .z6 _ => 0x80
  | .z7 _ => 0x100
  | .z8 _ => 0x200
  | .z9 _ => 0x400
  | .z10 _ => 0x800
  | .z11 _ => 0x1000
  | .zov _ => 0x000000
  | .o1 => 0x1
  | .o2 => 0x1
  | .o3 => 0x1
  | .o4 => 0x1
  | .o5 => 0x1
  | .o6 => 0x1
  | .o7 => 0x1
  | .o8 => 0x1
  | .o9 => 0x1
  | .o10 => 0x1
  | .o11 => 0x1
  | .o12 => 0x1
  | .oov _ => 0x000000
  | .cont => 0x000FFD
  | .mchg => 0x000FFE
  | .term => 0x000FFF

/-- The suffix field as a number; 0 where the row has none. -/
def suffix : Instr → Nat
  | .z0 x => x.toNat
  | .z1 x => x.toNat
  | .z2 x => x.toNat
  | .z3 x => x.toNat
  | .z4 x => x.toNat
  | .z5 x => x.toNat
  | .z6 x => x.toNat
  | .z7 x => x.toNat
  | .z8 x => x.toNat
  | .z9 x => x.toNat
  | .z10 x => x.toNat
  | .z11 x => x.toNat
  | .zov x => x.toNat
  | .o1 => 0
  | .o2 => 0
  | .o3 => 0
  | .o4 => 0
  | .o5 => 0
  | .o6 => 0
  | .o7 => 0
  | .o8 => 0
  | .o9 => 0
  | .o10 => 0
  | .o11 => 0
  | .o12 => 0
  | .oov x => x.toNat
  | .cont => 0
  | .mchg => 0
  | .term => 0

/-- The bits of a pattern are its row's: the row's length, and the row's fixed bits with the suffix in the low
places. -/
def TableRow.Statement (i : Instr) : Prop :=
  (encode i).length = rowLength i ∧ natOfBits (encode i) = rowMatch i + suffix i

theorem zBits_length (k x : Nat) : (zBits k x).length = 2 * k + 2 := by
  simp [zBits]
  omega

theorem natOfBits_zBits (k x : Nat) (h : x < 2 ^ (k + 1)) : natOfBits (zBits k x) = 2 ^ (k + 1) + x := by
  rw [zBits, natOfBits_append, natOfBits_replicate_false, natOfBits_cons, natOfBits_bin, bin_length,
    Nat.mod_eq_of_lt h]
  simp

theorem overflowBits_length (x : Nat) : (overflowBits x).length = 24 := by
  simp [overflowBits, Config.zMax, Config.ovfW]

theorem natOfBits_overflowBits (x : Nat) (h : x < 2 ^ 12) : natOfBits (overflowBits x) = x := by
  rw [overflowBits, natOfBits_append, natOfBits_replicate_false, natOfBits_bin, Nat.mod_eq_of_lt h]
  simp

theorem TableRow.z0 (x : BitVec 1) : TableRow.Statement (.z0 x) :=
  ⟨zBits_length 0 _, natOfBits_zBits 0 _ x.isLt⟩

theorem TableRow.z1 (x : BitVec 2) : TableRow.Statement (.z1 x) :=
  ⟨zBits_length 1 _, natOfBits_zBits 1 _ x.isLt⟩

theorem TableRow.z2 (x : BitVec 3) : TableRow.Statement (.z2 x) :=
  ⟨zBits_length 2 _, natOfBits_zBits 2 _ x.isLt⟩

theorem TableRow.z3 (x : BitVec 4) : TableRow.Statement (.z3 x) :=
  ⟨zBits_length 3 _, natOfBits_zBits 3 _ x.isLt⟩

theorem TableRow.z4 (x : BitVec 5) : TableRow.Statement (.z4 x) :=
  ⟨zBits_length 4 _, natOfBits_zBits 4 _ x.isLt⟩

theorem TableRow.z5 (x : BitVec 6) : TableRow.Statement (.z5 x) :=
  ⟨zBits_length 5 _, natOfBits_zBits 5 _ x.isLt⟩

theorem TableRow.z6 (x : BitVec 7) : TableRow.Statement (.z6 x) :=
  ⟨zBits_length 6 _, natOfBits_zBits 6 _ x.isLt⟩

theorem TableRow.z7 (x : BitVec 8) : TableRow.Statement (.z7 x) :=
  ⟨zBits_length 7 _, natOfBits_zBits 7 _ x.isLt⟩

theorem TableRow.z8 (x : BitVec 9) : TableRow.Statement (.z8 x) :=
  ⟨zBits_length 8 _, natOfBits_zBits 8 _ x.isLt⟩

theorem TableRow.z9 (x : BitVec 10) : TableRow.Statement (.z9 x) :=
  ⟨zBits_length 9 _, natOfBits_zBits 9 _ x.isLt⟩

theorem TableRow.z10 (x : BitVec 11) : TableRow.Statement (.z10 x) :=
  ⟨zBits_length 10 _, natOfBits_zBits 10 _ x.isLt⟩

theorem TableRow.z11 (x : BitVec 12) : TableRow.Statement (.z11 x) :=
  ⟨zBits_length 11 _, natOfBits_zBits 11 _ x.isLt⟩

theorem TableRow.zov (x : BitVec 12) : TableRow.Statement (.zov x) :=
  ⟨overflowBits_length _, (natOfBits_overflowBits _ x.isLt).trans (Nat.zero_add _).symm⟩

theorem TableRow.oov (x : BitVec 12) : TableRow.Statement (.oov x) :=
  ⟨overflowBits_length _, (natOfBits_overflowBits _ x.isLt).trans (Nat.zero_add _).symm⟩

theorem TableRow.o1 : TableRow.Statement .o1 := ⟨rfl, rfl⟩

theorem TableRow.o2 : TableRow.Statement .o2 := ⟨rfl, rfl⟩

theorem TableRow.o3 : TableRow.Statement .o3 := ⟨rfl, rfl⟩

theorem TableRow.o4 : TableRow.Statement .o4 := ⟨rfl, rfl⟩

theorem TableRow.o5 : TableRow.Statement .o5 := ⟨rfl, rfl⟩

theorem TableRow.o6 : TableRow.Statement .o6 := ⟨rfl, rfl⟩

theorem TableRow.o7 : TableRow.Statement .o7 := ⟨rfl, rfl⟩

theorem TableRow.o8 : TableRow.Statement .o8 := ⟨rfl, rfl⟩

theorem TableRow.o9 : TableRow.Statement .o9 := ⟨rfl, rfl⟩

theorem TableRow.o10 : TableRow.Statement .o10 := ⟨rfl, rfl⟩

theorem TableRow.o11 : TableRow.Statement .o11 := ⟨rfl, rfl⟩

theorem TableRow.o12 : TableRow.Statement .o12 := ⟨rfl, rfl⟩

theorem TableRow.cont : TableRow.Statement .cont := ⟨rfl, rfl⟩

theorem TableRow.mchg : TableRow.Statement .mchg := ⟨rfl, rfl⟩

theorem TableRow.term : TableRow.Statement .term := ⟨rfl, rfl⟩

end Sys2Proof.Laws
end

