-- ==== Sys2Proof/Laws/Step.lean ====
section
/-! SUPPORT. How a step reads the caller's script, what each input can do, and the memory after reset. -/

namespace Sys2Proof.Machine

theorem step_empty {s : State} (h : s.inputs = []) : step s = decTurn s := by
  unfold step
  rw [h]

theorem step_input {s : State} {a : Input} {rest : List Input} (h : s.inputs = a :: rest) :
    step s = takeInput a (s.withInputs rest) := by
  unfold step
  rw [h]

theorem decTurn_run {s : State} (h : s.dec.status = .run) : decTurn s = decStep s := if_pos h

theorem decTurn_next {s t : State} (h : decTurn s = .next t) : s.dec.status = .run ∧ decStep s = .next t := by
  unfold decTurn at h
  split at h
  · exact ⟨‹_›, h⟩
  · cases h

/-- If a token is taken, ENC was in RUN and only ENC changed (R22, R142). -/
theorem encToken_next {t : Token} {s u : State} (h : encToken t s = .next u) :
    ∃ e, encStep t s.enc = .ok e ∧ u = s.withEnc e := by
  unfold encToken at h
  cases hs : encStep t s.enc with
  | ok e =>
    rw [hs] at h
    exact ⟨e, rfl, (Host.Outcome.next.inj h).symm⟩
  | error r =>
    rw [hs] at h
    cases h

theorem encStart_next {s u : State} (h : encStart s = .next u) :
    s.enc.phase ≠ .run ∧ u = s.withEnc Enc.started := by
  unfold encStart at h
  split at h
  · cases h
  · exact ⟨‹_›, (Host.Outcome.next.inj h).symm⟩

theorem decStart_next {buf : List Byte} {strict : Bool} {s u : State} (h : decStart buf strict s = .next u) :
    s.dec.status ≠ .run ∧ u = s.withDec (Dec.started buf strict) := by
  unfold decStart at h
  split at h
  · cases h
  · exact ⟨‹_›, (Host.Outcome.next.inj h).symm⟩

theorem changeBuffer_next {s u : State} (h : changeBuffer s = .next u) : s.dec.status ≠ .run ∧ u = s := by
  unfold changeBuffer at h
  split at h
  · cases h
  · exact ⟨‹_›, (Host.Outcome.next.inj h).symm⟩

/-- What a token does in RUN, by cases (R143, R144). -/
theorem encStep_eq_ok {t : Token} {e e' : Enc} (h : encStep t e = .ok e') :
    e.phase = .run ∧ match t with
      | .bit b =>
        (e.haveRun = false ∧ e' = { e with haveRun := true, val := b, len := 1 }) ∨
        (e.haveRun = true ∧ b = e.val ∧ e' = { e with len := e.len + 1 }) ∨
        (e.haveRun = true ∧ b ≠ e.val ∧ ∃ f, emitRun e.val e.len e = .ok f ∧ e' = { f with val := b, len := 1 })
      | .endToken =>
        (e.haveRun = true ∧ ∃ f, emitRun e.val e.len e = .ok f ∧ finalize { f with haveRun := false } = .ok e') ∨
        (e.haveRun = false ∧ finalize e = .ok e') := by
  unfold encStep at h
  split at h
  · refine ⟨‹_›, ?_⟩
    cases t with
    | bit b =>
      simp only [encBit] at h ⊢
      cases hv : e.haveRun with
      | false =>
        simp only [hv, Bool.not_false, if_true] at h
        exact .inl ⟨rfl, (Except.ok.inj h).symm⟩
      | true =>
        simp only [hv, Bool.not_true, Bool.false_eq_true, if_false] at h
        split at h
        · exact .inr (.inl ⟨rfl, ‹_›, (Except.ok.inj h).symm⟩)
        · cases hr : emitRun e.val e.len e with
          | ok f =>
            rw [hr] at h
            exact .inr (.inr ⟨rfl, ‹_›, f, rfl, (Except.ok.inj h).symm⟩)
          | error r =>
            rw [hr] at h
            cases h
    | endToken =>
      simp only [encEnd] at h ⊢
      cases hv : e.haveRun with
      | false =>
        simp only [hv, Bool.false_eq_true, if_false] at h
        exact .inr ⟨rfl, h⟩
      | true =>
        simp only [hv, if_true] at h
        cases hr : emitRun e.val e.len e with
        | ok f =>
          rw [hr] at h
          exact .inl ⟨rfl, f, rfl, h⟩
        | error r =>
          rw [hr] at h
          cases h
  · cases h

/-- The memory at reset holds nothing and has the canonical form. -/
theorem reset_memory_wf : State.reset.dec.bsr.mem.wf = true := rfl

/-- `dec_start` loads a memory in the canonical form. -/
theorem started_memory_wf (buf : List Byte) (strict : Bool) : (Dec.started buf strict).bsr.mem.wf = true :=
  Memory.wf_ofBytes buf

end Sys2Proof.Machine
end

