-- ==== Sys2Proof/Tests/Slice0.lean ====
section
/-! SUPPORT. The model's own tests. Expected values come from the spec: the encodings of `30_encoding.md`,
`41_code_table_mode0.md`, `42_code_table_mode1.md` and `43_control_symbols.md`, and the vectors of
`95_test_vectors.md` (B, E, D, X, K, P); for each statement with hypotheses, a state that meets them. -/

namespace Sys2Proof.Tests

open Sys2Proof.Machine

/-! ## Helpers -/

/-- DEC in RUN on a buffer, script empty, with the given registers. -/
def decAt (bytes : List Byte) (mode runMode : Mode) (hold : Bool) (pos : Nat) (strict : Bool := true) : State :=
  State.reset.withDec { Dec.reset with
    mode := mode, runMode := runMode, hold := hold, strict := strict, status := .run
    bsr := { buf := some (Memory.ofBytes bytes), rPos := pos } }

/-- What a vector of section 7 gives of DEC. -/
structure DecView where
  out : Bits
  mode : Mode
  runMode : Mode
  hold : Bool
  status : Status
  padNz : Bool
  rPos : Nat
deriving DecidableEq, Repr

/-- DEC's registers after one step. -/
def decAfter (s : State) : Option DecView :=
  match step s with
  | .next t =>
    some { out := t.dec.out, mode := t.dec.mode, runMode := t.dec.runMode, hold := t.dec.hold,
           status := t.dec.status, padNz := t.dec.padNz, rPos := t.dec.bsr.rPos }
  | _ => none

/-- A run of `n` equal bits. -/
abbrev run (v : Bool) (n : Nat) : Bits := List.replicate n v

/-- ENC in phase RUN with a pending run and the script `inputs`. -/
def encAt (mode : Mode) (haveRun val : Bool) (len : Nat) (bsw : Bsw) (inputs : List Input) : State :=
  { State.reset with
    enc := { mode := mode, haveRun := haveRun, val := val, len := len, phase := .run, bsw := bsw }
    inputs := inputs }

/-- ENC after one step. -/
def encAfter (s : State) : Option Enc :=
  match step s with
  | .next t => some t.enc
  | _ => none

/-! ## WellFormed smoke: the check refuses an overflow suffix that is a control code, and nothing else -/

theorem test_wf_refuses_zov_above_max : (Instr.zov 0xFFD).wf = false ∧ (Instr.zov 0xFFF).wf = false := by decide
theorem test_wf_refuses_oov_above_max : (Instr.oov 0xFFD).wf = false ∧ (Instr.oov 0xFFE).wf = false := by decide
theorem test_wf_admits_max : (Instr.zov 0xFFC).wf = true ∧ (Instr.oov 0xFFC).wf = true ∧
    (Instr.z11 0xFFF).wf = true := by decide

/-! ## Decoding, one pattern per constructor, the bits written out; what follows the pattern is ones -/

theorem test_decode_z0 : decode .mode0 (Memory.ofBytes [0b10111111]) 0 = .pattern (.z0 0) 2 := by decide
theorem test_decode_z1 : decode .mode0 (Memory.ofBytes [0b01101111]) 0 = .pattern (.z1 2) 4 := by decide
theorem test_decode_z2 : decode .mode0 (Memory.ofBytes [0b00111111]) 0 = .pattern (.z2 7) 6 := by decide
theorem test_decode_z3 : decode .mode0 (Memory.ofBytes [0b00010000]) 0 = .pattern (.z3 0) 8 := by decide
theorem test_decode_z4 : decode .mode0 (Memory.ofBytes [0b00001111, 0b11111111]) 0 = .pattern (.z4 31) 10 := by decide
theorem test_decode_z5 : decode .mode0 (Memory.ofBytes [0b00000110, 0b01011111]) 0 = .pattern (.z5 37) 12 := by decide
theorem test_decode_z6 : decode .mode0 (Memory.ofBytes [0b00000010, 0b00000011]) 0 = .pattern (.z6 0) 14 := by decide
theorem test_decode_z7 : decode .mode0 (Memory.ofBytes [0b00000001, 0b11111111]) 0 = .pattern (.z7 255) 16 := by decide
theorem test_decode_z8 : decode .mode0 (Memory.ofBytes [0b00000000, 0b11111010, 0b01111111]) 0 = .pattern (.z8 489) 18 := by decide
theorem test_decode_z9 : decode .mode0 (Memory.ofBytes [0b00000000, 0b01111111, 0b11111111]) 0 = .pattern (.z9 1023) 20 := by decide
theorem test_decode_z10 : decode .mode0 (Memory.ofBytes [0b00000000, 0b00100000, 0b00000011]) 0 = .pattern (.z10 0) 22 := by decide
theorem test_decode_z11 : decode .mode0 (Memory.ofBytes [0b00000000, 0b00010101, 0b00111011]) 0 = .pattern (.z11 1339) 24 := by decide
theorem test_decode_zov : decode .mode0 (Memory.ofBytes [0b00000000, 0b00000111, 0b00010001]) 0 = .pattern (.zov 1809) 24 := by decide
theorem test_decode_o1 : decode .mode1 (Memory.ofBytes [0b11111111]) 0 = .pattern .o1 1 := by decide
theorem test_decode_o2 : decode .mode1 (Memory.ofBytes [0b01111111]) 0 = .pattern .o2 2 := by decide
theorem test_decode_o3 : decode .mode1 (Memory.ofBytes [0b00111111]) 0 = .pattern .o3 3 := by decide
theorem test_decode_o4 : decode .mode1 (Memory.ofBytes [0b00011111]) 0 = .pattern .o4 4 := by decide
theorem test_decode_o5 : decode .mode1 (Memory.ofBytes [0b00001111]) 0 = .pattern .o5 5 := by decide
theorem test_decode_o6 : decode .mode1 (Memory.ofBytes [0b00000111]) 0 = .pattern .o6 6 := by decide
theorem test_decode_o7 : decode .mode1 (Memory.ofBytes [0b00000011]) 0 = .pattern .o7 7 := by decide
theorem test_decode_o8 : decode .mode1 (Memory.ofBytes [0b00000001]) 0 = .pattern .o8 8 := by decide
theorem test_decode_o9 : decode .mode1 (Memory.ofBytes [0b00000000, 0b11111111]) 0 = .pattern .o9 9 := by decide
theorem test_decode_o10 : decode .mode1 (Memory.ofBytes [0b00000000, 0b01111111]) 0 = .pattern .o10 10 := by decide
theorem test_decode_o11 : decode .mode1 (Memory.ofBytes [0b00000000, 0b00111111]) 0 = .pattern .o11 11 := by decide
theorem test_decode_o12 : decode .mode1 (Memory.ofBytes [0b00000000, 0b00011111]) 0 = .pattern .o12 12 := by decide
theorem test_decode_oov : decode .mode1 (Memory.ofBytes [0b00000000, 0b00000000, 0b01010111]) 0 = .pattern (.oov 87) 24 := by decide
theorem test_decode_cont : decode .mode0 (Memory.ofBytes [0b00000000, 0b00001111, 0b11111101]) 0 = .pattern .cont 24 := by decide
theorem test_decode_mchg : decode .mode1 (Memory.ofBytes [0b00000000, 0b00001111, 0b11111110]) 0 = .pattern .mchg 24 := by decide
theorem test_decode_term : decode .mode0 (Memory.ofBytes [0b00000000, 0b00001111, 0b11111111]) 0 = .pattern .term 24 := by decide

/-- The three control patterns in the other table (K4, R134). -/
theorem test_decode_control_other_table :
    decode .mode1 (Memory.ofBytes [0x00, 0x0F, 0xFD]) 0 = .pattern .cont 24 ∧
    decode .mode0 (Memory.ofBytes [0x00, 0x0F, 0xFE]) 0 = .pattern .mchg 24 ∧
    decode .mode1 (Memory.ofBytes [0x00, 0x0F, 0xFF]) 0 = .pattern .term 24 := by decide

/-- `Z11(8190)` and `TERM` differ in bit 11 only; the largest overflow suffixes are data (section 3, 4). -/
theorem test_decode_tier_edges :
    decode .mode0 (Memory.ofBytes [0x00, 0x1F, 0xFF]) 0 = .pattern (.z11 4095) 24 ∧
    decode .mode0 (Memory.ofBytes [0x00, 0x0F, 0xFC]) 0 = .pattern (.zov 4092) 24 ∧
    decode .mode1 (Memory.ofBytes [0x00, 0x0F, 0xFC]) 0 = .pattern (.oov 4092) 24 := by decide

/-- Unaligned patterns: `46` is `0100 01 10` (E23). -/
theorem test_decode_unaligned :
    decode .mode1 (Memory.ofBytes [0x46]) 4 = .pattern .o2 6 ∧
    decode .mode0 (Memory.ofBytes [0x46]) 6 = .pattern (.z0 0) 8 := by decide

/-- Truncation: 23 bits of `TERM` (K5), one prefix bit (D5b), an empty buffer (D6), a prefix cut short (D7). -/
theorem test_decode_truncated :
    decode .mode0 (Memory.ofBytes [0x00, 0x07, 0xFF]) 1 = .endOfInput 13 ∧
    decode .mode0 (Memory.ofBytes [0xFF, 0xFF]) 15 = .endOfInput 16 ∧
    decode .mode0 (Memory.ofBytes []) 0 = .endOfInput 0 ∧
    decode .mode1 (Memory.ofBytes [0x00]) 0 = .endOfInput 8 := by decide

/-! ## Encoding: the bits written out from the tables of `95_test_vectors.md`, sections 3 to 5 -/

theorem test_encode_short :
    encode (.z0 1) = [true, true] ∧ encode (.z1 2) = [false, true, true, false] ∧ encode .o1 = [true] ∧
    encode .o3 = [false, false, true] := by decide
theorem test_encode_numerals :
    natOfBits (encode (.z5 37)) = 0b000001100101 ∧ natOfBits (encode (.z11 1339)) = 0b000000000001010100111011 ∧
    natOfBits (encode (.oov 7)) = 0b000000000000000000000111 ∧
    natOfBits (encode .cont) = 0b000000000000111111111101 := by decide
theorem test_encodeLen_edges :
    encodeLen .mode0 2046 = some (encode (.z9 1023)) ∧ encodeLen .mode0 2047 = some (encode (.z10 0)) ∧
    encodeLen .mode0 8190 = some (encode (.z11 4095)) ∧ encodeLen .mode0 8191 = some (encode (.zov 0)) ∧
    encodeLen .mode0 12283 = some (encode (.zov 4092)) ∧ encodeLen .mode0 12284 = none ∧
    encodeLen .mode0 0 = none := by decide
theorem test_encodeLen_mode1 :
    encodeLen .mode1 12 = some (encode .o12) ∧ encodeLen .mode1 13 = some (encode (.oov 0)) ∧
    encodeLen .mode1 4105 = some (encode (.oov 4092)) ∧ encodeLen .mode1 4106 = none := by decide

/-! ## Words of the opcode table -/

theorem test_table_words :
    decodeTableWord 8 0b10 = some (.z0 0) ∧ decodeTableWord 16 0b0000100000 = some (.z4 0) ∧
    decodeTableWord 24 0x001000 = some (.z11 0) ∧ decodeTableWord 24 0 = some (.zov 0) ∧
    decodeTableWord 24 0xFFD = some .cont ∧ decodeTableWord 24 0xFFF = some .term ∧
    decodeTableWord 1 1 = some .o1 ∧ decodeTableWord 24 0x1000000 = none := by decide
theorem test_fetch_word_runs :
    decAfter (State.reset.withFetchWord 8 0b0110) = some ⟨run false 5, .mode1, .mode0, false, .run, false, 4⟩ ∧
    decAfter (State.reset.withFetchWord 12 1) = some ⟨run true 12, .mode0, .mode1, false, .run, false, 12⟩ := by decide

/-! ## One step per instruction -/

theorem test_step_z0 : decAfter (decAt [0x80] .mode0 .mode0 false 0) =
    some ⟨run false 1, .mode1, .mode0, false, .run, false, 2⟩ := by decide
theorem test_step_z1 : decAfter (decAt [0x60] .mode0 .mode0 false 0) =
    some ⟨run false 5, .mode1, .mode0, false, .run, false, 4⟩ := by decide
theorem test_step_z2 : decAfter (decAt [0x3C] .mode0 .mode0 false 0) =
    some ⟨run false 14, .mode1, .mode0, false, .run, false, 6⟩ := by decide
theorem test_step_z3 : decAfter (decAt [0x10] .mode0 .mode0 false 0) =
    some ⟨run false 15, .mode1, .mode0, false, .run, false, 8⟩ := by decide
theorem test_step_z4 : decAfter (decAt [0x0F, 0xC0] .mode0 .mode0 false 0) =
    some ⟨run false 62, .mode1, .mode0, false, .run, false, 10⟩ := by decide
theorem test_exec_z5 : exec (.z5 37) State.reset = execData 100 State.reset :=
  congrArg (execData · State.reset) (by decide : zLen 5 (BitVec.toNat 37#6) = 100)
theorem test_exec_z6 : exec (.z6 127) State.reset = execData 254 State.reset :=
  congrArg (execData · State.reset) (by decide : zLen 6 (BitVec.toNat 127#7) = 254)
theorem test_exec_z7 : exec (.z7 0) State.reset = execData 255 State.reset :=
  congrArg (execData · State.reset) (by decide : zLen 7 (BitVec.toNat 0#8) = 255)
theorem test_exec_z8 : exec (.z8 489) State.reset = execData 1000 State.reset :=
  congrArg (execData · State.reset) (by decide : zLen 8 (BitVec.toNat 489#9) = 1000)
theorem test_exec_z9 : exec (.z9 1023) State.reset = execData 2046 State.reset :=
  congrArg (execData · State.reset) (by decide : zLen 9 (BitVec.toNat 1023#10) = 2046)
theorem test_exec_z10 : exec (.z10 0) State.reset = execData 2047 State.reset :=
  congrArg (execData · State.reset) (by decide : zLen 10 (BitVec.toNat 0#11) = 2047)
theorem test_exec_z11 : exec (.z11 1339) State.reset = execData 5434 State.reset :=
  congrArg (execData · State.reset) (by decide : zLen 11 (BitVec.toNat 1339#12) = 5434)
theorem test_exec_zov : exec (.zov 7) State.reset = execData 8198 State.reset :=
  congrArg (execData · State.reset) (by decide : ovfLen .mode0 (BitVec.toNat 7#12) = 8198)
theorem test_step_o1 : decAfter (decAt [0b10000000] .mode1 .mode0 false 0) =
    some ⟨run true 1, .mode0, .mode1, false, .run, false, 1⟩ := by decide
theorem test_step_o2 : decAfter (decAt [0b01000000] .mode1 .mode0 false 0) =
    some ⟨run true 2, .mode0, .mode1, false, .run, false, 2⟩ := by decide
theorem test_step_o3 : decAfter (decAt [0b00100000] .mode1 .mode0 false 0) =
    some ⟨run true 3, .mode0, .mode1, false, .run, false, 3⟩ := by decide
theorem test_step_o4 : decAfter (decAt [0b00010000] .mode1 .mode0 false 0) =
    some ⟨run true 4, .mode0, .mode1, false, .run, false, 4⟩ := by decide
theorem test_step_o5 : decAfter (decAt [0b00001000] .mode1 .mode0 false 0) =
    some ⟨run true 5, .mode0, .mode1, false, .run, false, 5⟩ := by decide
theorem test_step_o6 : decAfter (decAt [0b00000100] .mode1 .mode0 false 0) =
    some ⟨run true 6, .mode0, .mode1, false, .run, false, 6⟩ := by decide
theorem test_step_o7 : decAfter (decAt [0b00000010] .mode1 .mode0 false 0) =
    some ⟨run true 7, .mode0, .mode1, false, .run, false, 7⟩ := by decide
theorem test_step_o8 : decAfter (decAt [0b00000001] .mode1 .mode0 false 0) =
    some ⟨run true 8, .mode0, .mode1, false, .run, false, 8⟩ := by decide
theorem test_step_o9 : decAfter (decAt [0b00000000, 0b10000000] .mode1 .mode0 false 0) =
    some ⟨run true 9, .mode0, .mode1, false, .run, false, 9⟩ := by decide
theorem test_step_o10 : decAfter (decAt [0b00000000, 0b01000000] .mode1 .mode0 false 0) =
    some ⟨run true 10, .mode0, .mode1, false, .run, false, 10⟩ := by decide
theorem test_step_o11 : decAfter (decAt [0b00000000, 0b00100000] .mode1 .mode0 false 0) =
    some ⟨run true 11, .mode0, .mode1, false, .run, false, 11⟩ := by decide
theorem test_step_o12 : decAfter (decAt [0b00000000, 0b00010000] .mode1 .mode0 false 0) =
    some ⟨run true 12, .mode0, .mode1, false, .run, false, 12⟩ := by decide
theorem test_step_oov : decAfter (decAt [0x00, 0x00, 0x07] .mode1 .mode0 false 0) =
    some ⟨run true 20, .mode0, .mode1, false, .run, false, 24⟩ := by decide
/-- K1: nothing but `hold`. -/
theorem test_step_cont : decAfter (decAt [0x00, 0x0F, 0xFD] .mode1 .mode0 false 0) =
    some ⟨[], .mode1, .mode0, true, .run, false, 24⟩ := by decide
/-- K2 under a hold: the mode toggles, the hold stays (R180 (c)). -/
theorem test_step_mchg : decAfter (decAt [0x00, 0x0F, 0xFE] .mode1 .mode0 true 0) =
    some ⟨[], .mode0, .mode0, true, .run, false, 24⟩ := by decide
/-- D1; D12: `TERM` drops nothing and keeps the hold. -/
theorem test_step_term :
    decAfter (decAt [0x00, 0x0F, 0xFF] .mode0 .mode0 false 0) = some ⟨[], .mode0, .mode0, false, .ok, false, 24⟩ ∧
    decAfter (decAt [0x80, 0x03, 0xFF, 0x40, 0x03, 0xFF, 0xC0] .mode1 .mode0 true 26) =
      some ⟨[], .mode1, .mode0, true, .ok, false, 50⟩ := by decide
/-- D3 strict and lenient; D8c: the whole rest of the buffer is examined. -/
theorem test_step_term_padding :
    decAfter (decAt [0x80, 0x03, 0xFF, 0xC1] .mode1 .mode0 false 2) = some ⟨[], .mode1, .mode0, false, .padding, true, 26⟩ ∧
    decAfter (decAt [0x80, 0x03, 0xFF, 0xC1] .mode1 .mode0 false 2 false) = some ⟨[], .mode1, .mode0, false, .ok, true, 26⟩ ∧
    decAfter (decAt [0x00, 0x0F, 0xFF, 0x00, 0x80] .mode0 .mode0 false 0) =
      some ⟨[], .mode0, .mode0, false, .padding, true, 24⟩ := by decide
/-- P3 step 3: a value pattern is read in table `run_mode` and leaves `mode`. -/
theorem test_step_value_pattern : decAfter (decAt [0xA0, 0x01, 0xFF, 0xE0] .mode1 .mode0 true 0) =
    some ⟨[false], .mode1, .mode0, false, .run, false, 2⟩ := by decide
/-- D4: the suffix of `TERM` cut short. -/
theorem test_step_truncated : decAfter (decAt [0x80, 0x03, 0xFF] .mode1 .mode0 false 2) =
    some ⟨[], .mode1, .mode0, false, .truncated, false, 14⟩ := by decide

/-! ## The Bit Sequencer (B1 to B26) -/

theorem test_write_bits :
    writeBits 1 1 Bsw.reset = .ok { acc := 1, cnt := 1, fin := false, out := [] } ∧
    (writeBits 0b10 2 Bsw.reset).bind (writeBits 0xFFF 24) =
      .ok { acc := 0b11, cnt := 2, fin := false, out := [0x80, 0x03, 0xFF] } ∧
    writeBits 0 0 Bsw.reset = .ok Bsw.reset ∧
    writeBits 0x1FF 8 Bsw.reset = .ok { Bsw.reset with out := [0xFF] } := by decide
theorem test_finish_write :
    finishWrite { acc := 0b11, cnt := 2, fin := false, out := [0x80, 0x03, 0xFF] } =
      .ok { acc := 0, cnt := 0, fin := true, out := [0x80, 0x03, 0xFF, 0xC0] } ∧
    finishWrite Bsw.reset = .ok { Bsw.reset with fin := true } := by decide

/-- `80 03 FF C0` read from `pos`. -/
def bsrAt (pos : Nat) : Bsr := { buf := some (Memory.ofBytes [0x80, 0x03, 0xFF, 0xC0]), rPos := pos }

theorem test_read_bits :
    readBits 1 (bsrAt 0) = .ok (.bits 1 (bsrAt 1)) ∧ readBits 12 (bsrAt 14) = .ok (.bits 0xFFF (bsrAt 26)) ∧
    readBits 24 (bsrAt 0) = .ok (.bits 0x8003FF (bsrAt 24)) ∧ readBits 12 (bsrAt 6) = .ok (.bits 15 (bsrAt 18)) ∧
    readBits 0 (bsrAt 32) = .ok (.bits 0 (bsrAt 32)) ∧ readBits 7 (bsrAt 26) = .ok (.endOfInput (bsrAt 26)) := by decide
theorem test_peek_and_finish_read :
    peekBit (bsrAt 0) = some true ∧ peekBit (bsrAt 1) = some false ∧ peekBit (bsrAt 32) = none ∧
    finishRead (bsrAt 26) = .ok ∧ finishRead (bsrAt 32) = .ok ∧ finishRead (bsrAt 25) = .paddingError := by decide

/-! ## The encoder: steps of P1 and P2, and calls -/

/-- P1 step 7. -/
theorem test_enc_step_emits : encAfter (encAt .mode0 true false 1 { acc := 0b010001, cnt := 6, fin := false, out := [] }
      [.token (.bit true)]) =
    some ⟨.mode1, true, true, 1, .run, ⟨0, 0, false, [0x46]⟩⟩ := by decide
/-- P2 step 2: the leading mode change. -/
theorem test_enc_step_mode_change : encAfter (encAt .mode0 true true 1 Bsw.reset [.token (.bit false)]) =
    some ⟨.mode0, true, false, 1, .run, ⟨1, 1, false, [0x00, 0x0F, 0xFE]⟩⟩ := by decide
/-- P1 step 8. -/
theorem test_enc_step_end : encAfter (encAt .mode1 true true 1 { Bsw.reset with out := [0x46] } [.token .endToken]) =
    some ⟨.mode0, false, true, 1, .done, ⟨0, 0, true, [0x46, 0x80, 0x07, 0xFF, 0x80]⟩⟩ := by decide
/-- P3 step 12285: a split run. -/
theorem test_enc_step_split : encAfter (encAt .mode0 true false 12284 Bsw.reset [.token (.bit true)]) =
    some ⟨.mode1, true, true, 1, .run, ⟨2, 2, false, [0x00, 0x0F, 0xFC, 0x00, 0x0F, 0xFD]⟩⟩ := by decide
/-- E1, E5, E23. -/
theorem test_compress :
    compress [] = [0x00, 0x0F, 0xFF] ∧ compress [true] = [0x00, 0x0F, 0xFE, 0x80, 0x07, 0xFF, 0x80] ∧
    compress [false, false, false, true, true, false, true] = [0x46, 0x80, 0x07, 0xFF, 0x80] := by decide
/-- D5, D9, X5. -/
theorem test_decompress :
    decompress [0xFF] true = ([false, false, true, false, false, true, false, false], .truncated, false) ∧
    decompress [0x00, 0x0F, 0xFD, 0xC0, 0x03, 0xFF, 0xC0] true = ([false, false], .ok, false) ∧
    decompress [0x46, 0x80, 0x07] true = ([false, false, false, true, true, false, true], .truncated, false) := by decide

/-! ## What the spec refuses, and reset -/

theorem test_refusals :
    step (State.reset.withInputs [.token (.bit true)]) = .refused .tokenOutsideRun ∧
    step (encAt .mode0 false false 0 Bsw.reset [.encStart]) = .refused .encStartInRun ∧
    step ((decAt [] .mode0 .mode0 false 0).withInputs [.decStart [] true]) = .refused .decStartInRun ∧
    step ((decAt [] .mode0 .mode0 false 0).withInputs [.changeBuffer []]) = .refused .bufferChangedInRun ∧
    step State.reset = .fault .noStep := ⟨rfl, rfl, rfl, rfl, rfl⟩
theorem test_reset : callerView State.reset =
    { strict := true, status := .idle, padNz := false, phase := .idle, encOut := [], decOut := [] } := by decide

/-! ## Witnesses: for each statement with hypotheses, states and operands that meet all of them

One theorem per statement; a conjunct per clause, at the ends of its range. -/

theorem test_witness_OverflowTiersAppendTheirRuns :
    (0#12).toNat ≤ 4092 ∧ (4092#12).toNat ≤ 4092 := by decide

theorem test_witness_OrdinarySymbolAppendsRunAndFlips :
    ((Instr.z0 0).wf = true ∧ (Instr.z0 0).inTable (tableOf State.reset.dec) = true ∧
      dataLen (.z0 0) = some 1 ∧ State.reset.dec.hold = false) ∧
    ((Instr.oov 4092).wf = true ∧ (Instr.oov 4092).inTable (tableOf (decAt [] .mode1 .mode0 false 0).dec) = true ∧
      dataLen (.oov 4092) = some 4105 ∧ (decAt [] .mode1 .mode0 false 0).dec.hold = false) := by decide

theorem test_witness_ValuePatternExtendsRun :
    ((Instr.z0 1).wf = true ∧ (Instr.z0 1).inTable (tableOf (decAt [] .mode1 .mode0 true 0).dec) = true ∧
      dataLen (.z0 1) = some 2 ∧ (decAt [] .mode1 .mode0 true 0).dec.hold = true) ∧
    (Instr.o1.wf = true ∧ Instr.o1.inTable (tableOf (decAt [] .mode0 .mode1 true 0).dec) = true ∧
      dataLen .o1 = some 1 ∧ (decAt [] .mode0 .mode1 true 0).dec.hold = true) := by decide

theorem test_witness_TablesAppendTheirOwnBit :
    (dataLen .o3 = some 3 ∧ Instr.table .o3 = some .mode1 ∧
      tableOf (decAt [] .mode0 .mode1 true 0).dec = .mode1 ∧ (decAt [] .mode0 .mode1 true 0).dec.hold = true) ∧
    (dataLen (.z1 3) = some 6 ∧ Instr.table (.z1 3) = some .mode0 ∧
      tableOf (decAt [] .mode0 .mode1 false 0).dec = .mode0 ∧ (decAt [] .mode0 .mode1 false 0).dec.hold = false) := by
  decide

theorem test_witness_ModeChangeToggles :
    (decAt [] .mode0 .mode0 false 0).dec.mode = .mode0 ∧ (decAt [] .mode1 .mode0 true 0).dec.mode = .mode1 := by decide

theorem test_witness_TerminationSetsStatus :
    ¬ nonzeroPadding (decAt [0x00, 0x0F, 0xFF] .mode0 .mode0 false 24) ∧
    (nonzeroPadding (decAt [0x80, 0x03, 0xFF, 0xC1] .mode1 .mode0 false 26) ∧
      (decAt [0x80, 0x03, 0xFF, 0xC1] .mode1 .mode0 false 26).dec.strict = true) ∧
    (nonzeroPadding (decAt [0x80, 0x03, 0xFF, 0xC1] .mode1 .mode0 false 26 false) ∧
      (decAt [0x80, 0x03, 0xFF, 0xC1] .mode1 .mode0 false 26 false).dec.strict = false) :=
  ⟨fun ⟨_, h1, h2, _⟩ => absurd (Nat.lt_of_le_of_lt h1 h2) (by decide),
   ⟨⟨31, by decide⟩, rfl⟩, ⟨⟨31, by decide⟩, rfl⟩⟩

theorem test_witness_PaddingCheckSeesEveryBit :
    (bsrAt 32).rPos = 8 * (bsrAt 32).mem.size ∧ (26 ≤ 31 ∧ 31 < 8 * (bsrAt 26).mem.size) := by decide

theorem test_witness_DecodeOfEncodedPattern :
    ((Instr.z1 0).wf = true ∧ (Instr.z1 0).inTable .mode0 = true ∧ standsAt (.z1 0) (Memory.ofBytes [0x46]) 0) ∧
    (Instr.o2.wf = true ∧ Instr.o2.inTable .mode1 = true ∧ standsAt .o2 (Memory.ofBytes [0x46]) 4) ∧
    ((Instr.oov 4092).wf = true ∧ (Instr.oov 4092).inTable .mode1 = true ∧
      standsAt (.oov 4092) (Memory.ofBytes [0x00, 0x0F, 0xFC]) 0) ∧
    (Instr.term.wf = true ∧ Instr.term.inTable .mode1 = true ∧
      standsAt .term (Memory.ofBytes [0x80, 0x03, 0xFF, 0xC0]) 2) := by
  simp only [standsAt]; decide

theorem test_witness_DecodedPatternStandsThere :
    decode .mode0 (Memory.ofBytes [0x46]) 6 = .pattern (.z0 0) 8 ∧
    decode .mode1 (Memory.ofBytes [0x00, 0x0F, 0xFE]) 0 = .pattern .mchg 24 := by decide

/-- Each of the three ways: no bit left, at once and after eleven zeros (D6, D7); a Mode0 suffix one bit short (D5b);
an overflow suffix one bit short (K5). -/
theorem test_witness_TruncationExactlyWhereNoPatternFits :
    decode .mode1 (Memory.ofBytes [0x46]) 8 = .endOfInput 8 ∧
    decode .mode1 (Memory.ofBytes [0x00, 0x00]) 5 = .endOfInput 16 ∧
    decode .mode0 (Memory.ofBytes [0xFF, 0xFF]) 15 = .endOfInput 16 ∧
    decode .mode0 (Memory.ofBytes [0x00, 0x07, 0xFF]) 1 = .endOfInput 13 := by decide

theorem test_witness_EncodeLenIsInverseOfParse :
    (1 ≤ 12283 ∧ 12283 ≤ Config.maxLen .mode0 ∧ 1 ≤ 4105 ∧ 4105 ≤ Config.maxLen .mode1 ∧ 1 ≤ Config.maxLen .mode0) ∧
    standsAt (.zov 4092) (Memory.ofBytes [0x00, 0x0F, 0xFC]) 0 ∧
    ((Instr.zov 4092).wf = true ∧ (Instr.zov 4092).inTable .mode0 = true ∧ dataLen (.zov 4092) = some 12283) ∧
    Enc.started.Wf ∧ Enc.reset.Wf := by
  refine ⟨by decide, ⟨by decide, by decide⟩, by decide, ?_, ?_⟩
  · exact ⟨⟨by decide⟩, by decide, by decide, by decide, by decide⟩
  · exact ⟨⟨by decide⟩, by decide, by decide, by decide, fun _ => rfl⟩

/-- `CONT` whole; then 0 and 23 of its bits before the end of the buffer. -/
theorem test_witness_ControlPatternsModeIndependent :
    (Instr.cont, 0xFFD) ∈ [(Instr.cont, 0xFFD), (Instr.mchg, 0xFFE), (Instr.term, 0xFFF)] ∧
    standsAt .cont (Memory.ofBytes [0x00, 0x0F, 0xFD]) 0 ∧
    (0 < 24 ∧ 0 + 0 = 8 * (Memory.ofBytes []).size ∧ bitsAt (Memory.ofBytes []) 0 0 = (encode .cont).take 0) ∧
    (23 < 24 ∧ 1 + 23 = 8 * (Memory.ofBytes [0x00, 0x07, 0xFE]).size ∧
      bitsAt (Memory.ofBytes [0x00, 0x07, 0xFE]) 1 23 = (encode .cont).take 23 ∧
      (decAt [0x00, 0x07, 0xFE] .mode0 .mode0 false 1).dec.status = .run) := by
  simp only [standsAt]; decide

theorem test_witness_TablesAreCompletePrefixCodes :
    ((Instr.z0 1).wf = true ∧ (Instr.z0 1).inTable .mode0 = true ∧ encode (.z0 1) <+: encode (.z0 1)) ∧
    24 ≤ (List.replicate 24 false).length := by decide

theorem test_witness_EveryLengthHasOnePattern :
    ((Instr.z0 0).wf = true ∧ (Instr.z0 0).inTable .mode0 = true ∧ dataLen (.z0 0) = some 1) ∧
    ((Instr.zov 4092).wf = true ∧ (Instr.zov 4092).inTable .mode0 = true ∧ dataLen (.zov 4092) = some 12283) ∧
    (Instr.o1.wf = true ∧ Instr.o1.inTable .mode1 = true ∧ dataLen .o1 = some 1) ∧
    ((Instr.oov 4092).wf = true ∧ (Instr.oov 4092).inTable .mode1 = true ∧ dataLen (.oov 4092) = some 4105) := by
  decide

theorem test_witness_StreamIsMostSignificantBitFirst :
    0 / 8 < [(0x80 : Byte)].length ∧ 7 / 8 < [(0x80 : Byte)].length := by decide

theorem test_witness_WritesConcatenate :
    (12 + 12 ≤ 24 ∧ 0 < 2 ^ 12 ∧ 0xFFF < 2 ^ 12) ∧ (0 + 24 ≤ 24 ∧ 0 < 2 ^ 0 ∧ 0x8003FF < 2 ^ 24) := by decide

theorem test_witness_WritesPackTheirBits :
    ∀ w ∈ [(0b10, 2), (0xFFF, 24), (0, 0)], w.2 ≤ 24 := by decide

theorem test_witness_ReadsConcatenate :
    1 + 23 ≤ 24 ∧ readBits 1 (bsrAt 0) = .ok (.bits 1 (bsrAt 1)) ∧
    readBits 23 (bsrAt 1) = .ok (.bits 0x0003FF (bsrAt 24)) := by decide

/-- At the last width that fits, and one over it. -/
theorem test_witness_EndOfInputConsumesNothing :
    (24 ≤ 24 ∧ (bsrAt 8).rPos + 24 ≤ 8 * (bsrAt 8).mem.size) ∧
    (24 ≤ 24 ∧ 8 * (bsrAt 9).mem.size < (bsrAt 9).rPos + 24) := by decide

theorem test_witness_SequencerMisuseRefused :
    24 < 25 ∧ 24 ≤ 24 ∧ ({ Bsw.reset with fin := true } : Bsw).fin = true := by decide

/-- With an empty script and with a turn given to DEC; without and with a hold. -/
theorem test_witness_StepRunsDecodedInstruction :
    (∃ s : State, s.dec.status = .run ∧ s.inputs = [] ∧ s.dec.hold = false ∧
      decode (if s.dec.hold then s.dec.runMode else s.dec.mode) s.dec.bsr.mem s.dec.bsr.rPos = .pattern .o2 6) ∧
    (∃ s : State, s.dec.status = .run ∧ s.inputs = [.decTurn] ∧ s.dec.hold = true ∧
      decode (if s.dec.hold then s.dec.runMode else s.dec.mode) s.dec.bsr.mem s.dec.bsr.rPos = .pattern (.z0 0) 2) :=
  ⟨⟨decAt [0x46] .mode1 .mode0 false 4, by decide⟩,
   ⟨(decAt [0xA0] .mode1 .mode0 true 0).withInputs [.decTurn], by decide⟩⟩

theorem test_witness_TruncationTakesTheTrap :
    ∀ l ∈ [[], [Input.decTurn]],
      let s := (decAt [0x80, 0x03, 0xFF] .mode1 .mode0 false 2).withInputs l
      s.inputs = l ∧ s.dec.status = .run ∧
      decode (if s.dec.hold then s.dec.runMode else s.dec.mode) s.dec.bsr.mem s.dec.bsr.rPos = .endOfInput 14 := by
  decide

theorem test_witness_NoStepOutsideRun :
    (State.reset.dec.status ≠ .run ∧ State.reset.inputs = []) ∧
    ((State.reset.withInputs [.decTurn]).dec.status ≠ .run ∧
      (State.reset.withInputs [.decTurn]).inputs = [.decTurn]) := by decide

theorem test_witness_BufferChangeHasNoMeaningInACall :
    (∃ s : State, s.inputs = [.changeBuffer [0x46]] ∧ s.dec.status = .run) ∧
    (∃ s : State, s.inputs = [.changeBuffer [0x46]] ∧ s.dec.status ≠ .run) :=
  ⟨⟨(decAt [] .mode0 .mode0 false 0).withInputs [.changeBuffer [0x46]], by decide⟩,
   ⟨State.reset.withInputs [.changeBuffer [0x46]], by decide⟩⟩

theorem test_witness_DecStartBeginsAFreshCall :
    (∃ s : State, s.inputs = [.decStart [0x46] false] ∧ s.dec.status ≠ .run) ∧
    (∃ s : State, s.inputs = [.decStart [0x46] false] ∧ s.dec.status = .run) :=
  ⟨⟨State.reset.withInputs [.decStart [0x46] false], by decide⟩,
   ⟨(decAt [] .mode0 .mode0 false 0).withInputs [.decStart [0x46] false], by decide⟩⟩

theorem test_witness_EncStartBeginsAFreshCall :
    (∃ s : State, s.inputs = [.encStart] ∧ s.enc.phase ≠ .run) ∧
    (∃ s : State, s.inputs = [.encStart] ∧ s.enc.phase = .run) ∧
    (∃ s : State, s.inputs = [.token .endToken] ∧ s.enc.phase ≠ .run) :=
  ⟨⟨State.reset.withInputs [.encStart], by decide⟩,
   ⟨encAt .mode0 false false 0 Bsw.reset [.encStart], by decide⟩,
   ⟨State.reset.withInputs [.token .endToken], by decide⟩⟩

theorem test_witness_HardwareResetSetsEveryRegister :
    ((decAt [0x46] .mode1 .mode0 true 4).withInputs [.reset, .decTurn]).inputs = [.reset, .decTurn] := by decide

/-- DEC in RUN on its buffer, ENC in RUN with a run pending: the invariant holds, and the step answers next. -/
theorem test_witness_EveryStepKeepsTheInvariant :
    ∃ s t : State, s.Inv ∧ step s = .next t :=
  ⟨{ decAt [0x46] .mode1 .mode0 false 4 with
      enc := { mode := .mode0, haveRun := true, val := false, len := 1, phase := .run,
               bsw := { acc := 0b010001, cnt := 6, fin := false, out := [] } } }, _,
   ⟨⟨⟨by decide⟩, by decide, by decide, by decide, by decide⟩,
    ⟨by decide, by decide, by decide, by decide, by decide, by decide, by decide⟩⟩, rfl⟩

theorem test_witness_UnitsCommute :
    (∃ u : State,
      Host.Core.run Sys2Proof.core 2 ((decAt [0x46] .mode1 .mode0 false 4).withInputs [.encStart, .decTurn]) = .next u ∧
      Host.Core.run Sys2Proof.core 2 ((decAt [0x46] .mode1 .mode0 false 4).withInputs [.decTurn, .encStart]) = .next u) ∧
    (∃ u : State,
      Host.Core.run Sys2Proof.core 2 (((decAt [0x46] .mode1 .mode0 false 4).withEnc Enc.started).withInputs
        [.token (.bit true), .decTurn]) = .next u) := ⟨⟨_, rfl, rfl⟩, ⟨_, rfl⟩⟩

/-- A state for each kind of script entry; each has a next state. -/
theorem test_witness_StepTouchesOnlyItsUnit :
    (∀ l ∈ [[], [.decTurn], [.encStart], [.reset]],
      (decAfter ((decAt [0x46] .mode1 .mode0 false 4).withInputs l)).isSome = true) ∧
    (decAfter (State.reset.withInputs [.decStart [0x46] true])).isSome = true ∧
    (decAfter (State.reset.withInputs [.changeBuffer []])).isSome = true ∧
    (encAfter (encAt .mode0 false false 0 Bsw.reset [.token .endToken])).isSome = true := by decide

theorem test_witness_OutputsOnlyGrow :
    (∃ s t : State, step s = .next t ∧ s.inputs.head? ≠ some .reset ∧ s.inputs.head? ≠ some .encStart ∧
      ∀ buf strict, s.inputs.head? ≠ some (.decStart buf strict)) :=
  ⟨decAt [0x46] .mode1 .mode0 false 4, _, rfl, by decide, by decide, fun _ _ h => nomatch h⟩

/-- One state for each of the four ways a step of DEC ends, the last by a turn in the script. -/
theorem test_witness_HowADecodeCallEnds :
    (let s := decAt [0x46] .mode1 .mode0 false 4; s.inputs = [] ∧ s.dec.status = .run ∧
      decode (tableOf s.dec) s.dec.bsr.mem s.dec.bsr.rPos = .pattern .o2 6) ∧
    (let s := decAt [] .mode0 .mode0 false 0; s.inputs = [] ∧ s.dec.status = .run ∧
      decode (tableOf s.dec) s.dec.bsr.mem s.dec.bsr.rPos = .endOfInput 0) ∧
    (let s := decAt [0x00, 0x0F, 0xFF, 0x01] .mode0 .mode0 false 0; s.inputs = [] ∧ s.dec.status = .run ∧
      decode (tableOf s.dec) s.dec.bsr.mem s.dec.bsr.rPos = .pattern .term 24 ∧
      (decAfter s).map (·.status) = some .padding) ∧
    (let s := (decAt [0x00, 0x0F, 0xFF] .mode0 .mode0 false 0).withInputs [.decTurn];
      s.inputs.head? = some .decTurn ∧ s.dec.status = .run ∧
      (decAfter s).map (·.status) = some .ok) := by decide

/-- The strict and the lenient status of one buffer differ (D3). -/
theorem test_witness_StrictOnlySelectsTheStatus :
    (decompress [0x80, 0x03, 0xFF, 0xC1] true).2.1 ≠ (decompress [0x80, 0x03, 0xFF, 0xC1] false).2.1 := by decide

theorem test_witness_EveryDecodeCallTerminates : State.reset.dec.status ≠ .run := by decide

theorem test_witness_BitTokenScansRuns :
    (∃ s : State, s.inputs = [.token (.bit true)] ∧ s.enc.phase = .run ∧ s.enc.haveRun = false) ∧
    (∃ s : State, s.inputs = [.token (.bit true)] ∧ s.enc.phase = .run ∧ s.enc.haveRun = true ∧ s.enc.val = true) ∧
    (∃ s : State, s.inputs = [.token (.bit true)] ∧ s.enc.phase = .run ∧ s.enc.haveRun = true ∧ s.enc.val ≠ true ∧
      1 ≤ s.enc.len ∧ s.enc.bsw.fin = false) :=
  ⟨⟨encAt .mode0 false false 0 Bsw.reset [.token (.bit true)], by decide⟩,
   ⟨encAt .mode0 true true 1 Bsw.reset [.token (.bit true)], by decide⟩,
   ⟨encAt .mode0 true false 1 Bsw.reset [.token (.bit true)], by decide⟩⟩

theorem test_witness_EndTokenFinalizes :
    (∃ s : State, s.inputs = [.token .endToken] ∧ s.enc.phase = .run ∧ s.enc.bsw.fin = false ∧
      s.enc.haveRun = false ∧ (s.enc.haveRun = true → 1 ≤ s.enc.len)) ∧
    (∃ s : State, s.inputs = [.token .endToken] ∧ s.enc.phase = .run ∧ s.enc.bsw.fin = false ∧
      s.enc.haveRun = true ∧ (s.enc.haveRun = true → 1 ≤ s.enc.len)) :=
  ⟨⟨encAt .mode0 false false 0 Bsw.reset [.token .endToken], by decide⟩,
   ⟨encAt .mode0 true true 1 Bsw.reset [.token .endToken], by decide⟩⟩

theorem test_witness_RunSplitsIntoMaximalPieces :
    (1 ≤ 1 ∧ Mode.ofBit false = .mode0) ∧ (1 ≤ 4105 ∧ Mode.ofBit true = .mode1) ∧
    (1 ≤ 24566 ∧ emitRunSymbols .mode1 false 24566 =
      [.modeChange, .ordinary .mode0 12283, .continuation .mode0 12283]) ∧
    (1 ≤ 12284 ∧ emitRunSymbols .mode0 false 12284 = [.ordinary .mode0 12283, .continuation .mode0 1]) := by decide

/-- Also the hypothesis of `EncoderEmitsTheCanonicalStream`. -/
theorem test_witness_EveryEncodeCallCompletes : State.reset.enc.phase ≠ .run := by decide

/-- A run of two ones after a mode change, in a Mode0 state. -/
theorem test_witness_DecodingARunKeepsModesAgreed :
    let s := decAt [0x00, 0x0F, 0xFE, 0x40] .mode0 .mode0 false 0
    let bits := (emitRunSymbols s.dec.mode true 2).flatMap symbolBits
    s.inputs = [] ∧ s.dec.status = .run ∧ s.dec.hold = false ∧ 1 ≤ 2 ∧
    s.dec.bsr.rPos + bits.length ≤ 8 * s.dec.bsr.mem.size ∧
    bitsAt s.dec.bsr.mem s.dec.bsr.rPos bits.length = bits ∧
    Enc.started.mode = s.dec.mode ∧ (emitRun true 2 Enc.started).toOption.isSome = true := by decide

theorem test_witness_CutStreamIsTruncated :
    0 < (compress []).length ∧ 2 < (compress []).length ∧ 6 < (compress [true]).length := by decide

/-- E15: a canonical stream with a continuation symbol; E5: one with a mode change. -/
theorem test_witness_ControlSymbolPlacement :
    streamSymbols (run false 12284) = [.ordinary .mode0 12283, .continuation .mode0 1, .termination] ∧
    streamSymbols [true] = [.modeChange, .ordinary .mode1 1, .termination] := by
  refine ⟨?_, by decide⟩
  rw [run, streamSymbols, runsOf_replicate, List.head?_replicate]
  decide

end Sys2Proof.Tests
end

