-- ==== Sys2Proof/Proofs/Encoding.lean ====
section
/-! PROOFS. The three forms of a pattern (regular Mode0 tier, regular Mode1 tier, twelve-zero pattern), the parse of
each, and `EncodeLen` as the inverse of the parse (`30_encoding.md` R81). -/

namespace Sys2Proof.Machine

/-! ## The forms of a pattern -/

/-- A pattern that has a table stands in no other (R64). -/
theorem eq_of_inTable {i : Instr} {t tbl : Mode} (ht : i.table = some t) (h : i.inTable tbl = true) :
    tbl = t := by
  simp only [Instr.inTable, ht, beq_iff_eq] at h
  exact h.symm

/-- A data suffix is none of the three control suffixes (R67). -/
theorem suffix_ne_control {x : Nat} (hx : x ≤ Config.ovfXmax) :
    x ≠ Config.sufCont ∧ x ≠ Config.sufMchg ∧ x ≠ Config.sufTerm := by
  simp only [Config.ovfXmax] at hx
  simp only [Config.sufCont, Config.sufMchg, Config.sufTerm]
  omega

theorem overflowPattern_mode0 {x : Nat} (hx : x ≤ Config.ovfXmax) :
    overflowPattern .mode0 x = .zov (BitVec.ofNat 12 x) := by
  obtain ⟨hcont, hmchg, hterm⟩ := suffix_ne_control hx
  simp [overflowPattern, hcont, hmchg, hterm]

theorem overflowPattern_mode1 {x : Nat} (hx : x ≤ Config.ovfXmax) :
    overflowPattern .mode1 x = .oov (BitVec.ofNat 12 x) := by
  obtain ⟨hcont, hmchg, hterm⟩ := suffix_ne_control hx
  simp [overflowPattern, hcont, hmchg, hterm]

/-- Every well-formed pattern of a table is one that the parse of that table can build (R75). -/
theorem pattern_forms {tbl : Mode} {i : Instr} (hwf : i.wf = true) (htbl : i.inTable tbl = true) :
    (tbl = .mode0 ∧ ∃ (z : Fin 12) (x : Nat), x < 2 ^ (z.val + 1) ∧ i = zPattern z x) ∨
    (tbl = .mode1 ∧ ∃ z : Fin 12, i = oPattern z) ∨
    (∃ x, x < 2 ^ 12 ∧ i = overflowPattern tbl x) := by
  cases i with
  | z0 x => exact .inl ⟨eq_of_inTable rfl htbl, 0, x.toNat, x.isLt, by simp [zPattern]⟩
  | z1 x => exact .inl ⟨eq_of_inTable rfl htbl, 1, x.toNat, x.isLt, by simp [zPattern]⟩
  | z2 x => exact .inl ⟨eq_of_inTable rfl htbl, 2, x.toNat, x.isLt, by simp [zPattern]⟩
  | z3 x => exact .inl ⟨eq_of_inTable rfl htbl, 3, x.toNat, x.isLt, by simp [zPattern]⟩
  | z4 x => exact .inl ⟨eq_of_inTable rfl htbl, 4, x.toNat, x.isLt, by simp [zPattern]⟩
  | z5 x => exact .inl ⟨eq_of_inTable rfl htbl, 5, x.toNat, x.isLt, by simp [zPattern]⟩
  | z6 x => exact .inl ⟨eq_of_inTable rfl htbl, 6, x.toNat, x.isLt, by simp [zPattern]⟩
  | z7 x => exact .inl ⟨eq_of_inTable rfl htbl, 7, x.toNat, x.isLt, by simp [zPattern]⟩
  | z8 x => exact .inl ⟨eq_of_inTable rfl htbl, 8, x.toNat, x.isLt, by simp [zPattern]⟩
  | z9 x => exact .inl ⟨eq_of_inTable rfl htbl, 9, x.toNat, x.isLt, by simp [zPattern]⟩
  | z10 x => exact .inl ⟨eq_of_inTable rfl htbl, 10, x.toNat, x.isLt, by simp [zPattern]⟩
  | z11 x => exact .inl ⟨eq_of_inTable rfl htbl, 11, x.toNat, x.isLt, by simp [zPattern]⟩
  | o1 => exact .inr (.inl ⟨eq_of_inTable rfl htbl, 0, rfl⟩)
  | o2 => exact .inr (.inl ⟨eq_of_inTable rfl htbl, 1, rfl⟩)
  | o3 => exact .inr (.inl ⟨eq_of_inTable rfl htbl, 2, rfl⟩)
  | o4 => exact .inr (.inl ⟨eq_of_inTable rfl htbl, 3, rfl⟩)
  | o5 => exact .inr (.inl ⟨eq_of_inTable rfl htbl, 4, rfl⟩)
  | o6 => exact .inr (.inl ⟨eq_of_inTable rfl htbl, 5, rfl⟩)
  | o7 => exact .inr (.inl ⟨eq_of_inTable rfl htbl, 6, rfl⟩)
  | o8 => exact .inr (.inl ⟨eq_of_inTable rfl htbl, 7, rfl⟩)
  | o9 => exact .inr (.inl ⟨eq_of_inTable rfl htbl, 8, rfl⟩)
  | o10 => exact .inr (.inl ⟨eq_of_inTable rfl htbl, 9, rfl⟩)
  | o11 => exact .inr (.inl ⟨eq_of_inTable rfl htbl, 10, rfl⟩)
  | o12 => exact .inr (.inl ⟨eq_of_inTable rfl htbl, 11, rfl⟩)
  | zov x =>
    obtain rfl : tbl = .mode0 := eq_of_inTable rfl htbl
    exact .inr (.inr ⟨x.toNat, x.isLt, by simp [overflowPattern_mode0 (of_decide_eq_true hwf)]⟩)
  | oov x =>
    obtain rfl : tbl = .mode1 := eq_of_inTable rfl htbl
    exact .inr (.inr ⟨x.toNat, x.isLt, by simp [overflowPattern_mode1 (of_decide_eq_true hwf)]⟩)
  | cont => exact .inr (.inr ⟨Config.sufCont, by decide, rfl⟩)
  | mchg => exact .inr (.inr ⟨Config.sufMchg, by decide, rfl⟩)
  | term => exact .inr (.inr ⟨Config.sufTerm, by decide, rfl⟩)

theorem encode_zPattern (z : Fin 12) {x : Nat} (hx : x < 2 ^ (z.val + 1)) :
    encode (zPattern z x) = zBits z.val x := by
  conv_rhs => rw [← Nat.mod_eq_of_lt hx]
  fin_cases z <;> rfl

theorem encode_oPattern (z : Fin 12) : encode (oPattern z) = oBits (z.val + 1) := by
  fin_cases z <;> rfl

theorem encode_overflowPattern (tbl : Mode) {x : Nat} (hx : x < 2 ^ 12) :
    encode (overflowPattern tbl x) = overflowBits x := by
  unfold overflowPattern
  split_ifs with hc hm ht
  · rw [hc, encode]
  · rw [hm, encode]
  · rw [ht, encode]
  · conv_rhs => rw [← Nat.mod_eq_of_lt hx]
    cases tbl <;> rfl

theorem dataLen_zPattern (z : Fin 12) {x : Nat} (hx : x < 2 ^ (z.val + 1)) :
    dataLen (zPattern z x) = some (zLen z.val x) := by
  conv_rhs => rw [← Nat.mod_eq_of_lt hx]
  fin_cases z <;> rfl

theorem dataLen_oPattern (z : Fin 12) : dataLen (oPattern z) = some (z.val + 1) := by
  fin_cases z <;> rfl

/-- A twelve-zero pattern is data exactly when its suffix is at most `OVF_XMAX` (R67, R73). -/
theorem dataLen_overflowPattern {tbl : Mode} {x n : Nat} (hx : x < 2 ^ 12) :
    dataLen (overflowPattern tbl x) = some n ↔ x ≤ Config.ovfXmax ∧ n = ovfLen tbl x := by
  by_cases hle : x ≤ Config.ovfXmax
  · have hmod : x % 4096 = x := Nat.mod_eq_of_lt hx
    cases tbl with
    | mode0 => simp [overflowPattern_mode0 hle, dataLen, hmod, hle, eq_comm]
    | mode1 => simp [overflowPattern_mode1 hle, dataLen, hmod, hle, eq_comm]
  · have hsuf : x = Config.sufCont ∨ x = Config.sufMchg ∨ x = Config.sufTerm := by
      simp only [Config.ovfXmax] at hle
      simp only [Config.sufCont, Config.sufMchg, Config.sufTerm]
      omega
    rcases hsuf with rfl | rfl | rfl <;> simp [overflowPattern, dataLen, hle]

/-! ## The parse of each form -/

theorem bitsAt_eq_append {m : Memory} {pos n : Nat} {as bs : Bits} (h : bitsAt m pos n = as ++ bs) :
    bitsAt m pos as.length = as ∧ bitsAt m (pos + as.length) bs.length = bs := by
  have hn : n = as.length + bs.length := by simpa using congrArg List.length h
  rw [hn, bitsAt_add] at h
  exact List.append_inj h (by simp)

/-- The numeral of a number that fits, standing in the buffer, is read back (R13, R90). -/
theorem takeBits_bin {m : Memory} {pos w x : Nat} (hx : x < 2 ^ w) (hle : pos + w ≤ 8 * m.size)
    (hbits : bitsAt m pos w = bin w x) : takeBits m pos w = some (x, pos + w) := by
  rw [takeBits_eq_some, hbits, natOfBits_bin, Nat.mod_eq_of_lt hx]
  exact ⟨hle, rfl, rfl⟩

theorem decode_zPattern {m : Memory} {pos : Nat} (z : Fin 12) {x : Nat} (hx : x < 2 ^ (z.val + 1))
    (h : standsAt (zPattern z x) m pos) :
    decode .mode0 m pos = .pattern (zPattern z x) (pos + (encode (zPattern z x)).length) := by
  have hlen : (encode (zPattern z x)).length = z.val + 1 + (z.val + 1) := by
    rw [encode_zPattern z hx, Laws.zBits_length]
    omega
  obtain ⟨hle, hbits⟩ := h
  rw [hlen] at hle hbits ⊢
  have hsplit : encode (zPattern z x) = (List.replicate z.val false ++ [true]) ++ bin (z.val + 1) x := by
    simp [encode_zPattern z hx, zBits]
  obtain ⟨hprefix, hsuffix⟩ := bitsAt_eq_append (hbits.trans hsplit)
  simp only [List.length_append, List.length_replicate, List.length_singleton, bin_length] at hprefix hsuffix
  have hcount : countZeros m Config.zMax 0 pos = .ok (z.val, pos + z.val + 1) := by
    simpa using countZeros_terminated (z := 0) z.isLt (by omega) hprefix
  have htake := takeBits_bin hx (by omega) hsuffix
  simp only [← Nat.add_assoc] at htake ⊢
  simp [decode, hcount, htake]

theorem decode_oPattern {m : Memory} {pos : Nat} (z : Fin 12) (h : standsAt (oPattern z) m pos) :
    decode .mode1 m pos = .pattern (oPattern z) (pos + (encode (oPattern z)).length) := by
  have hlen : (encode (oPattern z)).length = z.val + 1 := by simp [encode_oPattern, oBits]
  obtain ⟨hle, hbits⟩ := h
  rw [hlen] at hle hbits ⊢
  have hcount : countZeros m Config.zMax 0 pos = .ok (z.val, pos + z.val + 1) := by
    simpa using countZeros_terminated (z := 0) z.isLt (by omega)
      (hbits.trans (by simp [encode_oPattern, oBits]))
  simp [decode, hcount, Nat.add_assoc]

theorem decode_overflowPattern {m : Memory} {pos : Nat} (tbl : Mode) {x : Nat} (hx : x < 2 ^ 12)
    (h : standsAt (overflowPattern tbl x) m pos) :
    decode tbl m pos =
      .pattern (overflowPattern tbl x) (pos + (encode (overflowPattern tbl x)).length) := by
  have hlen : (encode (overflowPattern tbl x)).length = 24 := by
    rw [encode_overflowPattern tbl hx, Laws.overflowBits_length]
  obtain ⟨hle, hbits⟩ := h
  rw [hlen] at hle hbits ⊢
  rw [encode_overflowPattern tbl hx, overflowBits] at hbits
  obtain ⟨hprefix, hsuffix⟩ := bitsAt_eq_append hbits
  simp only [List.length_replicate, bin_length] at hprefix hsuffix
  have hcount : countZeros m Config.zMax 0 pos = .ok (12, pos + 12) := by
    simpa using countZeros_zeros (z := 0) (by simp only [Config.zMax]; omega) hprefix
  have htake := takeBits_bin hx (by simp only [Config.zMax]; omega) hsuffix
  simp [decode, hcount, htake]

/-- Parsing a well-formed pattern where it stands gives it back and consumes its bits (R75, R76). -/
theorem decode_of_standsAt {tbl : Mode} {i : Instr} {m : Memory} {pos : Nat} (hwf : i.wf = true)
    (htbl : i.inTable tbl = true) (h : standsAt i m pos) :
    decode tbl m pos = .pattern i (pos + (encode i).length) := by
  rcases pattern_forms hwf htbl with ⟨rfl, z, x, hx, rfl⟩ | ⟨rfl, z, rfl⟩ | ⟨x, hx, rfl⟩
  · exact decode_zPattern z hx h
  · exact decode_oPattern z h
  · exact decode_overflowPattern tbl hx h

/-! ## `EncodeLen` -/

/-- The Mode0 tiers do not overlap, so the search of R114 finds the tier whose range holds `n`. -/
theorem tierOf_zLen {k x : Nat} (hk : k < 12) (hx : x < 2 ^ (k + 1)) : tierOf (zLen k x) = some k := by
  have hdouble : 2 ^ (k + 2) = 2 * 2 ^ (k + 1) := by ring
  rw [tierOf, List.find?_range_eq_some]
  refine ⟨?_, List.mem_range.mpr hk, fun j hj => ?_⟩
  · simp only [Bool.and_eq_true, decide_eq_true_eq]
    simp only [zLen]
    omega
  · have hpow : 2 ^ (j + 2) ≤ 2 ^ (k + 1) := Nat.pow_le_pow_right (by decide) (by omega)
    have hpos : 0 < 2 ^ (j + 2) := by positivity
    simp only [Bool.not_eq_true', Bool.and_eq_false_iff, decide_eq_false_iff_not]
    simp only [zLen]
    omega

/-- A regular Mode0 length stands below the overflow tier. -/
theorem zLen_lt_ovfMin {k x : Nat} (hk : k < 12) (hx : x < 2 ^ (k + 1)) :
    0 < zLen k x ∧ zLen k x < Config.ovfMin .mode0 := by
  have hlow : 2 ^ 1 ≤ 2 ^ (k + 1) := Nat.pow_le_pow_right (by decide) (by omega)
  have hhigh : 2 ^ (k + 1) ≤ 2 ^ 12 := Nat.pow_le_pow_right (by decide) (by omega)
  simp only [zLen, Config.ovfMin]
  omega

theorem encodeLen_zLen {k x : Nat} (hk : k < 12) (hx : x < 2 ^ (k + 1)) :
    encodeLen .mode0 (zLen k x) = some (zBits k x) := by
  obtain ⟨hpos, hlt⟩ := zLen_lt_ovfMin hk hx
  have hdom : ¬ (zLen k x = 0 ∨ Config.maxLen .mode0 < zLen k x) := by
    simp only [Config.maxLen]
    omega
  have hsuffix : zLen k x - (2 ^ (k + 1) - 1) = x := Nat.add_sub_cancel_left ..
  rw [encodeLen, if_neg hdom, if_neg (by omega)]
  simp [tierOf_zLen hk hx, hsuffix]

theorem encodeLen_oLen {n : Nat} (hpos : 1 ≤ n) (hn : n ≤ 12) : encodeLen .mode1 n = some (oBits n) := by
  unfold encodeLen
  rw [if_neg (by simp only [Config.maxLen, Config.ovfMin]; omega), if_neg (by simp only [Config.ovfMin]; omega)]

theorem encodeLen_ovfLen (tbl : Mode) {x : Nat} (hx : x ≤ Config.ovfXmax) :
    encodeLen tbl (ovfLen tbl x) = some (overflowBits x) := by
  have hpos : 0 < Config.ovfMin tbl := by cases tbl <;> decide
  unfold encodeLen
  rw [if_neg (by simp only [Config.maxLen, ovfLen]; omega), if_pos (by simp only [ovfLen]; omega), ovfLen,
    Nat.add_sub_cancel_left]

/-- Every data pattern of the table is `EncodeLen` of its value (R81). -/
theorem encodeLen_of_dataLen {tbl : Mode} {i : Instr} {n : Nat} (hwf : i.wf = true)
    (htbl : i.inTable tbl = true) (hn : dataLen i = some n) : encodeLen tbl n = some (encode i) := by
  rcases pattern_forms hwf htbl with ⟨rfl, z, x, hx, rfl⟩ | ⟨rfl, z, rfl⟩ | ⟨x, hx, rfl⟩
  · obtain rfl : zLen z.val x = n := Option.some.inj ((dataLen_zPattern z hx).symm.trans hn)
    rw [encode_zPattern z hx, encodeLen_zLen z.isLt hx]
  · obtain rfl : z.val + 1 = n := Option.some.inj ((dataLen_oPattern z).symm.trans hn)
    rw [encode_oPattern z, encodeLen_oLen (by omega) (by omega)]
  · obtain ⟨hle, rfl⟩ := (dataLen_overflowPattern hx).mp hn
    rw [encode_overflowPattern tbl hx, encodeLen_ovfLen tbl hle]

theorem zPattern_wf (z : Fin 12) (x : Nat) :
    (zPattern z x).wf = true ∧ (zPattern z x).inTable .mode0 = true := by
  fin_cases z <;> exact ⟨rfl, rfl⟩

theorem oPattern_wf (z : Fin 12) : (oPattern z).wf = true ∧ (oPattern z).inTable .mode1 = true := by
  fin_cases z <;> exact ⟨rfl, rfl⟩

theorem overflowPattern_wf (tbl : Mode) {x : Nat} (hx : x ≤ Config.ovfXmax) :
    (overflowPattern tbl x).wf = true ∧ (overflowPattern tbl x).inTable tbl = true := by
  have hmod : x % 4096 ≤ Config.ovfXmax := (Nat.mod_le _ _).trans hx
  cases tbl with
  | mode0 => simpa [overflowPattern_mode0 hx, Instr.wf, Instr.inTable, Instr.table] using hmod
  | mode1 => simpa [overflowPattern_mode1 hx, Instr.wf, Instr.inTable, Instr.table] using hmod

/-- The Mode0 tier ranges cover every length below the overflow tier: the tier is `⌊log₂(n + 1)⌋ - 1` (R114). -/
theorem exists_zLen_eq {n : Nat} (hpos : 1 ≤ n) (hn : n < Config.ovfMin .mode0) :
    ∃ (z : Fin 12) (x : Nat), x < 2 ^ (z.val + 1) ∧ zLen z.val x = n := by
  simp only [Config.ovfMin] at hn
  have hlow : 2 ^ Nat.log 2 (n + 1) ≤ n + 1 := Nat.pow_log_le_self 2 (by omega)
  have hhigh : n + 1 < 2 ^ (Nat.log 2 (n + 1) + 1) := Nat.lt_pow_succ_log_self (by decide) _
  have hlog_pos : 0 < Nat.log 2 (n + 1) := Nat.log_pos (by decide) (by omega)
  have hlog_lt : Nat.log 2 (n + 1) < 13 := Nat.log_lt_of_lt_pow (by omega) (by omega)
  obtain ⟨k, hk⟩ : ∃ k, Nat.log 2 (n + 1) = k + 1 := ⟨_, (Nat.sub_add_cancel hlog_pos).symm⟩
  rw [hk] at hlow hhigh hlog_lt
  rw [pow_succ] at hhigh
  refine ⟨⟨k, by omega⟩, n + 1 - 2 ^ (k + 1), ?_, ?_⟩
  · simp only
    omega
  · simp only [zLen]
    omega

/-- Every length from 1 to `MAX` has a data pattern (R71, R72, R74). -/
theorem exists_pattern_of_len {tbl : Mode} {n : Nat} (hpos : 1 ≤ n) (hn : n ≤ Config.maxLen tbl) :
    ∃ i : Instr, i.wf = true ∧ i.inTable tbl = true ∧ dataLen i = some n := by
  by_cases hov : Config.ovfMin tbl ≤ n
  · have hx : n - Config.ovfMin tbl ≤ Config.ovfXmax := by
      rw [Config.maxLen] at hn
      omega
    have hlen : n = ovfLen tbl (n - Config.ovfMin tbl) := by
      rw [ovfLen]
      omega
    obtain ⟨hwf, htbl⟩ := overflowPattern_wf tbl hx
    exact ⟨_, hwf, htbl, (dataLen_overflowPattern (hx.trans_lt (by decide))).mpr ⟨hx, hlen⟩⟩
  · cases tbl with
    | mode0 =>
      obtain ⟨z, x, hx, rfl⟩ := exists_zLen_eq hpos (by omega)
      obtain ⟨hwf, htbl⟩ := zPattern_wf z x
      exact ⟨_, hwf, htbl, dataLen_zPattern z hx⟩
    | mode1 =>
      simp only [Config.ovfMin] at hov
      obtain ⟨hwf, htbl⟩ := oPattern_wf ⟨n - 1, by omega⟩
      refine ⟨_, hwf, htbl, ?_⟩
      rw [dataLen_oPattern, Option.some.injEq]
      exact Nat.sub_add_cancel hpos

/-- `EncodeLen` is undefined exactly outside the lengths 1 to `MAX` (R81). -/
theorem encodeLen_eq_none {tbl : Mode} {n : Nat} :
    encodeLen tbl n = none ↔ n = 0 ∨ Config.maxLen tbl < n := by
  refine ⟨fun hnone => ?_, fun hout => by unfold encodeLen; exact if_pos hout⟩
  by_contra hin
  obtain ⟨i, hwf, htbl, hlen⟩ := exists_pattern_of_len (tbl := tbl) (n := n) (by omega) (by omega)
  rw [encodeLen_of_dataLen hwf htbl hlen] at hnone
  cases hnone

/-! ## ENC asks for defined patterns only -/

/-- The value of a symbol is one for which `EncodeLen` is defined; markers carry none. -/
def Symbol.LenInRange : Symbol → Prop
  | .ordinary m n | .continuation m n => 1 ≤ n ∧ n ≤ Config.maxLen m
  | .modeChange | .termination => True

theorem maxLen_pos (m : Mode) : 0 < Config.maxLen m := by cases m <;> decide

/-- The loop of R145 cuts a run into lengths from 1 to `MAX`. -/
theorem pieces_in_range {m : Mode} {fuel L k : Nat} (hpos : 1 ≤ L) (hfuel : L ≤ fuel)
    (hk : k ∈ pieces m fuel L) : 1 ≤ k ∧ k ≤ Config.maxLen m := by
  induction fuel generalizing L with
  | zero => omega
  | succ fuel ih =>
    have hmax := maxLen_pos m
    rw [pieces] at hk
    split at hk
    · obtain rfl : k = L := List.mem_singleton.mp hk
      omega
    · rcases List.mem_cons.mp hk with rfl | hk
      · omega
      · exact ih (by omega) (by omega) hk

theorem runSymbols_in_range {v : Bool} {n : Nat} (hn : 1 ≤ n) {y : Symbol} (hy : y ∈ runSymbols v n) :
    y.LenInRange := by
  have hpieces : ∀ k ∈ pieces (Mode.ofBit v) n n, 1 ≤ k ∧ k ≤ Config.maxLen (Mode.ofBit v) :=
    fun _ hk => pieces_in_range hn le_rfl hk
  rw [runSymbols] at hy
  cases hp : pieces (Mode.ofBit v) n n with
  | nil => simp [hp] at hy
  | cons a rest =>
    simp only [hp, List.mem_cons, List.mem_map] at hy
    simp only [hp, List.mem_cons, forall_eq_or_imp] at hpieces
    obtain ⟨ha, hrest⟩ := hpieces
    rcases hy with rfl | ⟨k, hk, rfl⟩
    · exact ha
    · exact hrest k hk

theorem emitRunSymbols_in_range {active : Mode} {v : Bool} {n : Nat} (hn : 1 ≤ n) {y : Symbol}
    (hy : y ∈ emitRunSymbols active v n) : y.LenInRange := by
  rcases List.mem_append.mp hy with hy | hy
  · split at hy
    · cases hy
    · obtain rfl : y = .modeChange := List.mem_singleton.mp hy
      trivial
  · exact runSymbols_in_range hn hy

theorem emit_ne_noPattern (p : Bits) (b : Bsw) : emit p b ≠ .error .noPattern := by
  unfold emit writeBits
  split_ifs <;> simp

theorem finishWrite_ne_noPattern (b : Bsw) : finishWrite b ≠ .error .noPattern := by
  unfold finishWrite
  split_ifs <;> simp

theorem emitLen_ne_noPattern {m : Mode} {n : Nat} (hpos : 1 ≤ n) (hn : n ≤ Config.maxLen m) (b : Bsw) :
    emitLen m n b ≠ .error .noPattern := by
  unfold emitLen
  cases hp : encodeLen m n with
  | some p => exact emit_ne_noPattern p b
  | none =>
    have := encodeLen_eq_none.mp hp
    omega

theorem emitSymbol_ne_noPattern {y : Symbol} (hy : y.LenInRange) (b : Bsw) :
    emitSymbol y b ≠ .error .noPattern := by
  cases y with
  | ordinary m n => exact emitLen_ne_noPattern hy.1 hy.2 b
  | continuation m n =>
    have hmarker := emit_ne_noPattern (encode .cont) b
    unfold emitSymbol
    cases hc : emit (encode .cont) b with
    | ok c => exact emitLen_ne_noPattern hy.1 hy.2 c
    | error r => simpa [hc] using hmarker
  | modeChange => exact emit_ne_noPattern _ b
  | termination => exact emit_ne_noPattern _ b

theorem emitSymbols_ne_noPattern {ys : List Symbol} (hys : ∀ y ∈ ys, y.LenInRange) (b : Bsw) :
    emitSymbols ys b ≠ .error .noPattern := by
  induction ys generalizing b with
  | nil => simp
  | cons y ys ih =>
    obtain ⟨hy, hys⟩ := List.forall_mem_cons.mp hys
    have hfirst := emitSymbol_ne_noPattern hy b
    rw [emitSymbols]
    cases hc : emitSymbol y b with
    | ok c => exact ih hys c
    | error r => simpa [hc] using hfirst

theorem emitRun_ne_noPattern {n : Nat} (hn : 1 ≤ n) (v : Bool) (e : Enc) :
    emitRun v n e ≠ .error .noPattern := by
  have hsymbols : emitSymbols (emitRunSymbols e.mode v n) e.bsw ≠ .error .noPattern :=
    emitSymbols_ne_noPattern (fun _ hy => emitRunSymbols_in_range hn hy) e.bsw
  unfold emitRun
  cases hc : emitSymbols (emitRunSymbols e.mode v n) e.bsw with
  | ok b => simp
  | error r => simpa [hc] using hsymbols

theorem finalize_ne_noPattern (e : Enc) : finalize e ≠ .error .noPattern := by
  have hterm := emit_ne_noPattern (encode .term) e.bsw
  rw [finalize, emitSymbol_termination]
  cases hc : emit (encode .term) e.bsw with
  | error r => simpa [hc] using hterm
  | ok b =>
    have hfinish := finishWrite_ne_noPattern b
    simp only
    cases hf : finishWrite b with
    | error r => simpa [hf] using hfinish
    | ok b' => simp

/-- While ENC holds a run its length is at least 1, so no token asks `EncodeLen` outside its domain (R81). -/
theorem encStep_ne_noPattern {t : Token} {e : Enc} (hwf : e.Wf) : encStep t e ≠ .error .noPattern := by
  have hrun (hv : e.haveRun = true) : emitRun e.val e.len e ≠ .error .noPattern :=
    emitRun_ne_noPattern (hwf.len_pos hv) e.val e
  unfold encStep
  split_ifs with hphase
  · cases t with
    | bit b =>
      simp only [encBit]
      split_ifs with hv hb
      · simp
      · simp
      · have hrun := hrun (by simpa using hv)
        cases hc : emitRun e.val e.len e with
        | ok f => simp
        | error r => simpa [hc] using hrun
    | endToken =>
      simp only [encEnd]
      split_ifs with hv
      · have hrun := hrun hv
        cases hc : emitRun e.val e.len e with
        | ok f => exact finalize_ne_noPattern _
        | error r => simpa [hc] using hrun
      · exact finalize_ne_noPattern e
  · simp

/-- Settles O15: every length in the domain has a pattern, a pattern determines its length's encoding, and the parse
gives the pattern back; ENC's runs are cut into lengths of the domain. -/
theorem encodeLenIsInverseOfParse : Obligations.EncodeLenIsInverseOfParse := by
  refine ⟨fun tbl n hpos hn => ?_, fun _ _ _ => encodeLen_of_dataLen, fun _ _ => encodeLen_eq_none,
    fun _ _ => encStep_ne_noPattern⟩
  obtain ⟨i, hwf, htbl, hlen⟩ := exists_pattern_of_len hpos hn
  exact ⟨i, encodeLen_of_dataLen hwf htbl hlen, hwf, htbl, hlen, fun _ _ => decode_of_standsAt hwf htbl⟩

end Sys2Proof.Machine
end

section
/-! PROOFS. The control patterns: twelve zeros and a suffix above `OVF_XMAX`, one meaning for both tables
(`43_control_symbols.md` R134); what the parse answers where the buffer ends inside a twelve-zero pattern; and what
leaves the output as it is. -/

namespace Sys2Proof.Machine

/-! ## The three control patterns -/

/-- The control patterns with their suffixes (R134). -/
def controlPatterns : List (Instr × Nat) := [(.cont, 0xFFD), (.mchg, 0xFFE), (.term, 0xFFF)]

/-- The parse builds a control pattern from its suffix without looking at the table (R68, R75). -/
theorem overflowPattern_control {c : Instr × Nat} (hc : c ∈ controlPatterns) (tbl : Mode) :
    overflowPattern tbl c.2 = c.1 := by
  simp only [controlPatterns, List.mem_cons, List.not_mem_nil, or_false] at hc
  rcases hc with rfl | rfl | rfl <;> rfl

theorem control_suffix_range {c : Instr × Nat} (hc : c ∈ controlPatterns) :
    Config.ovfXmax < c.2 ∧ c.2 < 2 ^ 12 := by
  revert c
  decide

theorem encode_control {c : Instr × Nat} (hc : c ∈ controlPatterns) : encode c.1 = overflowBits c.2 := by
  rw [← overflowPattern_control hc .mode0, encode_overflowPattern _ (control_suffix_range hc).2]

theorem encode_control_length {c : Instr × Nat} (hc : c ∈ controlPatterns) : (encode c.1).length = 24 := by
  rw [encode_control hc, Laws.overflowBits_length]

theorem dataLen_control {c : Instr × Nat} (hc : c ∈ controlPatterns) : dataLen c.1 = none := by
  obtain ⟨hmin, hlt⟩ := control_suffix_range hc
  rw [← overflowPattern_control hc .mode0, Option.eq_none_iff_forall_ne_some]
  intro n hn
  obtain ⟨hle, _⟩ := (dataLen_overflowPattern hlt).mp hn
  omega

theorem decode_control {c : Instr × Nat} (hc : c ∈ controlPatterns) (tbl : Mode) {m : Memory} {pos : Nat}
    (h : standsAt c.1 m pos) : decode tbl m pos = .pattern c.1 (pos + 24) := by
  rw [← overflowPattern_control hc tbl] at h
  rw [decode_overflowPattern tbl (control_suffix_range hc).2 h, overflowPattern_control hc tbl,
    encode_control_length hc]

/-! ## The output -/

@[simp] theorem terminate_out (s : State) : (terminate s).dec.out = s.dec.out := by
  rcases terminate_cases s with ⟨_, h⟩ | ⟨_, _, h⟩ | ⟨_, _, h⟩ <;> simp [h]

/-- A pattern that carries no data appends nothing to `DEC.out` (R134). -/
theorem exec_out_of_dataLen_none {i : Instr} (h : dataLen i = none) (s : State) :
    ∃ t, exec i s = .next t ∧ t.dec.out = s.dec.out := by
  rcases exec_cases i s with ⟨n, hn, _⟩ | ⟨_, he⟩ | ⟨_, he⟩ | ⟨_, he⟩
  · rw [h] at hn
    cases hn
  · exact ⟨_, he, Dec.setHold_out _⟩
  · exact ⟨_, he, Dec.flipMode_out _⟩
  · exact ⟨_, he, terminate_out s⟩

/-! ## The end of the buffer inside a pattern -/

/-- Only zeros up to the end of the buffer, and fewer than the count asks for: the end strikes after the last. -/
theorem countZeros_cut {m : Memory} {left z pos k : Nat} (hk : k < left) (hend : pos + k = 8 * m.size)
    (hbits : bitsAt m pos k = List.replicate k false) : countZeros m left z pos = .error (pos + k) := by
  induction k generalizing left z pos with
  | zero =>
    obtain ⟨left, rfl⟩ := Nat.exists_eq_add_one_of_ne_zero hk.ne'
    rw [countZeros_succ, if_pos (by omega), Nat.add_zero]
  | succ k ih =>
    obtain ⟨left, rfl⟩ := Nat.exists_eq_add_one_of_ne_zero (Nat.ne_zero_of_lt hk)
    rw [bitsAt, List.replicate_succ, List.cons.injEq] at hbits
    obtain ⟨hbit, hrest⟩ := hbits
    rw [countZeros_succ, if_neg (by omega), if_neg (by simp [hbit]), ih (by omega) (by omega) hrest]
    congr 1
    omega

theorem take_bitsAt {m : Memory} {pos n k : Nat} (hk : k ≤ n) : (bitsAt m pos n).take k = bitsAt m pos k := by
  obtain ⟨d, rfl⟩ := Nat.exists_eq_add_of_le hk
  rw [bitsAt_add, List.take_left' (bitsAt_length ..)]

theorem take_overflowBits {x k : Nat} (hk : k ≤ 12) : (overflowBits x).take k = List.replicate k false := by
  rw [overflowBits, List.take_append_of_le_length (by simpa using hk), List.take_replicate, min_eq_left hk]

/-- The zeros of a twelve-zero pattern of which only the first `k` bits are in the buffer. -/
theorem bitsAt_cut_overflow_zeros {m : Memory} {pos k x : Nat}
    (hbits : bitsAt m pos k = (overflowBits x).take k) :
    bitsAt m pos (min k 12) = List.replicate (min k 12) false := by
  have hle : min k 12 ≤ k := min_le_left ..
  rw [← take_bitsAt hle, hbits, List.take_take, min_eq_left hle, take_overflowBits (min_le_right ..)]

/-- Where the buffer ends inside a twelve-zero pattern both tables answer `EndOfInput`: among the zeros nothing but
zeros is read, and after them the suffix read fails, leaving the position before it (R75, R76). -/
theorem decode_cut_overflow (tbl : Mode) {m : Memory} {pos k x : Nat} (hk : k < 24)
    (hend : pos + k = 8 * m.size) (hbits : bitsAt m pos k = (overflowBits x).take k) :
    decode tbl m pos = .endOfInput (pos + min k 12) := by
  have hzeros := bitsAt_cut_overflow_zeros hbits
  by_cases hshort : k < 12
  · rw [min_eq_left (by omega)] at hzeros ⊢
    have hcount : countZeros m Config.zMax 0 pos = .error (pos + k) := countZeros_cut hshort hend hzeros
    simp [decode, hcount]
  · rw [min_eq_right (by omega)] at hzeros ⊢
    have hcount : countZeros m Config.zMax 0 pos = .ok (12, pos + 12) := by
      simpa using countZeros_zeros (z := 0) (by omega) hzeros
    have htake : takeBits m (pos + 12) Config.ovfW = none := by
      rw [takeBits_eq_none]
      simp only [Config.ovfW]
      omega
    simp [decode, hcount, htake]

/-- In RUN, `EndOfInput` from the parse is the trap `TruncatedStream` of the step (R164, R193). -/
theorem decTurn_endOfInput {s : State} {p : Nat} (hrun : s.dec.status = .run)
    (h : decode (tableOf s.dec) s.dec.bsr.mem s.dec.bsr.rPos = .endOfInput p) :
    decTurn s = .next (raise .truncatedStream (s.seek p)) := by
  rw [decTurn_run hrun]
  rcases decStep_cases s with ⟨i, q, hq, _⟩ | ⟨q, hq, hstep⟩
  · rw [h] at hq
    cases hq
  · rw [h] at hq
    cases hq
    exact hstep

@[simp] theorem raise_truncatedStream_status (s : State) :
    (raise .truncatedStream s).dec.status = .truncated := rfl

/-- Settles O16: the table-independent parse of a control pattern, whole and cut, and its frame on the output. -/
theorem controlPatternsModeIndependent : Obligations.ControlPatternsModeIndependent := by
  intro c (hc : c ∈ controlPatterns)
  refine ⟨encode_control hc, encode_control_length hc, fun tbl _ _ => decode_control hc tbl,
    exec_out_of_dataLen_none (dataLen_control hc), fun s k hk hend hbits hrun => ?_⟩
  rw [encode_control hc] at hbits
  exact ⟨fun tbl => ⟨_, decode_cut_overflow tbl hk hend hbits⟩,
    _, decTurn_endOfInput hrun (decode_cut_overflow _ hk hend hbits), raise_truncatedStream_status _⟩

end Sys2Proof.Machine
end

section
/-! PROOFS. The Run Encoder raises no exception (`44_run_encoder.md` R151): a sequencer before `finish_write` takes
every symbol whose length has a pattern, so ENC in RUN takes every token. -/

namespace Sys2Proof.Machine

/-! ## Writing symbols -/

/-- A pattern is at most `SYM_MAX_BITS` long, so `write_bits` takes it (R9, R86). -/
theorem encode_length_le {tbl : Mode} {i : Instr} (hwf : i.wf = true) (htbl : i.inTable tbl = true) :
    (encode i).length ≤ 24 := by
  rcases pattern_forms hwf htbl with ⟨_, z, x, hx, rfl⟩ | ⟨_, z, rfl⟩ | ⟨x, hx, rfl⟩
  · rw [encode_zPattern z hx, Laws.zBits_length]
    omega
  · simp only [encode_oPattern, oBits, List.length_append, List.length_replicate, List.length_singleton]
    omega
  · rw [encode_overflowPattern tbl hx, Laws.overflowBits_length]

theorem emit_encode {tbl : Mode} {i : Instr} {b : Bsw} (hwf : i.wf = true) (htbl : i.inTable tbl = true)
    (hfin : b.fin = false) : emit (encode i) b = .ok (putString (encode i) b) :=
  emit_eq_ok.mpr ⟨encode_length_le hwf htbl, hfin, rfl⟩

theorem emitLen_eq_putString {m : Mode} {n : Nat} {b : Bsw} (hpos : 1 ≤ n) (hn : n ≤ Config.maxLen m)
    (hfin : b.fin = false) : emitLen m n b = .ok (putString ((encodeLen m n).getD []) b) := by
  obtain ⟨i, hwf, htbl, hlen⟩ := exists_pattern_of_len hpos hn
  have hbits := encodeLen_of_dataLen hwf htbl hlen
  rw [hbits]
  exact emitLen_eq_ok.mpr ⟨_, hbits, emit_encode hwf htbl hfin⟩

/-- A symbol whose length has a pattern goes out as its bits (R87, R145). -/
theorem emitSymbol_eq_putString {y : Symbol} {b : Bsw} (hy : y.LenInRange) (hfin : b.fin = false) :
    emitSymbol y b = .ok (putString (symbolBits y) b) := by
  cases y with
  | ordinary m n => exact emitLen_eq_putString hy.1 hy.2 hfin
  | continuation m n =>
    rw [symbolBits, putString_append]
    exact emitSymbol_continuation.mpr ⟨_, emit_encode (tbl := m) rfl rfl hfin,
      emitLen_eq_putString hy.1 hy.2 (by simpa using hfin)⟩
  | modeChange => exact emit_encode (tbl := .mode0) rfl rfl hfin
  | termination => exact emit_encode (tbl := .mode0) rfl rfl hfin

theorem emitSymbols_eq_putString {ys : List Symbol} {b : Bsw} (hys : ∀ y ∈ ys, y.LenInRange)
    (hfin : b.fin = false) : emitSymbols ys b = .ok (putString (ys.flatMap symbolBits) b) := by
  induction ys generalizing b with
  | nil => rfl
  | cons y ys ih =>
    obtain ⟨hy, hys⟩ := List.forall_mem_cons.mp hys
    rw [List.flatMap_cons, putString_append]
    exact emitSymbols_cons.mpr ⟨_, emitSymbol_eq_putString hy hfin, ih hys (by simpa using hfin)⟩

theorem emitRun_eq_putString {n : Nat} {e : Enc} (hn : 1 ≤ n) (v : Bool) (hfin : e.bsw.fin = false) :
    emitRun v n e = .ok { e with
      bsw := putString ((emitRunSymbols e.mode v n).flatMap symbolBits) e.bsw
      mode := (Mode.ofBit v).other } :=
  emitRun_eq_ok.mpr ⟨_, emitSymbols_eq_putString (fun _ hy => emitRunSymbols_in_range hn hy) hfin, rfl⟩

theorem exists_finishWrite {b : Bsw} (hfin : b.fin = false) : ∃ b', finishWrite b = .ok b' := by
  by_cases hcnt : b.cnt = 0
  · exact ⟨_, finishWrite_eq_ok.mpr ⟨hfin, .inl ⟨hcnt, rfl⟩⟩⟩
  · exact ⟨_, finishWrite_eq_ok.mpr ⟨hfin, .inr ⟨hcnt, rfl⟩⟩⟩

theorem exists_finalize {e : Enc} (hfin : e.bsw.fin = false) :
    ∃ e', finalize e = .ok e' ∧ e'.phase = .done := by
  have hterm := emit_encode (tbl := .mode0) (i := .term) rfl rfl hfin
  obtain ⟨b', hb'⟩ := exists_finishWrite (b := putString (encode .term) e.bsw) (by simpa using hfin)
  exact ⟨_, finalize_eq_ok.mpr ⟨_, b', hterm, hb', rfl⟩, rfl⟩

/-! ## ENC takes every token in RUN -/

/-- What of the invariant (R25, R30, R31) the tokens need: ENC is in RUN, `finish_write` is still to come, and a pending
run is not empty. -/
structure Enc.Accepting (e : Enc) : Prop where
  phase_run : e.phase = .run
  fin_false : e.bsw.fin = false
  len_pos : e.haveRun = true → 1 ≤ e.len

theorem Enc.accepting_started : Enc.started.Accepting := ⟨rfl, rfl, by simp⟩

/-- A `BIT` starts a run, extends it, or writes it and starts the next; ENC then takes the next token (R143). -/
theorem Enc.Accepting.exists_encBit {e : Enc} (he : e.Accepting) (b : Bool) :
    ∃ e', encBit b e = .ok e' ∧ e'.Accepting := by
  obtain ⟨hrun, hfin, hlen⟩ := he
  unfold encBit
  cases hv : e.haveRun with
  | false => exact ⟨_, rfl, hrun, hfin, fun _ => le_rfl⟩
  | true =>
    by_cases hb : b = e.val
    · rw [if_pos hb]
      exact ⟨_, rfl, hrun, hfin, fun _ => Nat.le_add_left ..⟩
    · rw [if_neg hb, emitRun_eq_putString (hlen hv) e.val hfin]
      exact ⟨_, rfl, hrun, by simpa using hfin, fun _ => le_rfl⟩

/-- `END` writes the pending run, if any, and the termination (R144, R150). -/
theorem Enc.Accepting.exists_encEnd {e : Enc} (he : e.Accepting) :
    ∃ e', encEnd e = .ok e' ∧ e'.phase = .done := by
  obtain ⟨_, hfin, hlen⟩ := he
  unfold encEnd
  cases hv : e.haveRun with
  | false => exact exists_finalize hfin
  | true =>
    rw [emitRun_eq_putString (hlen hv) e.val hfin]
    exact exists_finalize (by simpa using hfin)

theorem encStep_bit {e : Enc} (hrun : e.phase = .run) (b : Bool) : encStep (.bit b) e = encBit b e :=
  if_pos hrun

theorem encStep_endToken {e : Enc} (hrun : e.phase = .run) : encStep .endToken e = encEnd e :=
  if_pos hrun

/-! ## The caller's script -/

theorem run_succ_of_step {s u : State} (h : step s = .next u) (k : Nat) :
    Host.Core.run Sys2Proof.core (k + 1) s = Host.Core.run Sys2Proof.core k u := by
  have hcore : Sys2Proof.core.step s = .next u := h
  simp only [Host.Core.run, hcore]

/-- A token that ENC takes leaves DEC as it was and is gone from the script (R22, R37). -/
theorem step_token {s : State} {t : Token} {rest : List Input} {e : Enc}
    (hin : s.inputs = .token t :: rest) (h : encStep t s.enc = .ok e) :
    step s = .next ((s.withInputs rest).withEnc e) := by
  rw [step_input hin, takeInput, encToken, State.withInputs_enc, h]

/-- From any state that takes tokens, finitely many bits and `END` are taken, one a step. -/
theorem run_bits_then_end (b : Bits) {s : State} (he : s.enc.Accepting)
    (hin : s.inputs = b.map (fun x => .token (.bit x)) ++ [.token .endToken]) :
    ∃ t, Host.Core.run Sys2Proof.core (b.length + 1) s = .next t ∧ t.enc.phase = .done ∧ t.dec = s.dec := by
  induction b generalizing s with
  | nil =>
    obtain ⟨e, hend, hdone⟩ := he.exists_encEnd
    have hstep := step_token hin ((encStep_endToken he.phase_run).trans hend)
    exact ⟨_, run_succ_of_step hstep 0, hdone, rfl⟩
  | cons x b ih =>
    obtain ⟨e, hbit, hacc⟩ := he.exists_encBit x
    have hstep := step_token hin ((encStep_bit he.phase_run x).trans hbit)
    obtain ⟨t, hrun, hdone, hdec⟩ := ih (s := (s.withInputs _).withEnc e) hacc rfl
    exact ⟨t, (run_succ_of_step hstep _).trans hrun, hdone, hdec⟩

/-- Outside RUN the command `enc_start` at the head of the script is taken (R207). -/
theorem step_encStart {s : State} {rest : List Input} (hin : s.inputs = .encStart :: rest)
    (hphase : s.enc.phase ≠ .run) : step s = .next ((s.withInputs rest).withEnc Enc.started) := by
  rw [step_input hin, takeInput]
  exact if_neg hphase

/-- Settles O46: `enc_start` leaves an ENC that takes tokens, and that is kept by every `BIT` until `END`. -/
theorem everyEncodeCallCompletes : Obligations.EveryEncodeCallCompletes := by
  intro s b hphase
  have hstart := step_encStart (s := s.withInputs (encodeScript b)) rfl hphase
  obtain ⟨t, hrun, hdone, hdec⟩ := run_bits_then_end b
    (s := (s.withInputs _).withEnc Enc.started) Enc.accepting_started rfl
  exact ⟨t, (run_succ_of_step hstart _).trans hrun, hdone, congrArg Dec.status hdec⟩

end Sys2Proof.Machine
end

section
/-! PROOFS. What a data pattern does (`45_run_decoder.md` R165 to R167). -/

namespace Sys2Proof.Machine

theorem Mode.other_ne (m : Mode) : m.other ≠ m := by cases m <;> decide

/-- A pattern that carries data is `ExecData` of its run length, in every state (R165). -/
theorem exec_of_dataLen {i : Instr} {n : Nat} (h : dataLen i = some n) (s : State) :
    exec i s = .next (afterData n s) := by
  rcases exec_cases i s with ⟨k, hk, he⟩ | ⟨rfl, _⟩ | ⟨rfl, _⟩ | ⟨rfl, _⟩
  · obtain rfl : k = n := Option.some.inj (hk.symm.trans h)
    exact he
  · cases h
  · cases h
  · cases h

theorem afterData_of_hold_false {s : State} (h : s.dec.hold = false) (n : Nat) :
    afterData n s = s.withDec (s.dec.ordinary n) := by
  simp [afterData, State.withDec, Dec.ordinary, tableOf, h]

/-- Settles O4: a data pattern is `ExecData`, and without a hold `ExecData` is the ordinary symbol of R166. -/
theorem ordinarySymbolAppendsRunAndFlips : Obligations.OrdinarySymbolAppendsRunAndFlips := by
  intro i n s _ _ hlen hhold
  refine ⟨?_, Mode.other_ne _⟩
  rw [exec_of_dataLen hlen, afterData_of_hold_false hhold]
  rfl

end Sys2Proof.Machine
end

section
/-! PROOFS. Packing a bit string into a buffer and reading it back (`20_memory.md` R48, R63). -/

namespace Sys2Proof.Machine

theorem bin_getElem {w v j : Nat} (h : j < (bin w v).length) : (bin w v)[j] = v.testBit (w - 1 - j) := by
  induction w generalizing j with
  | zero => simp at h
  | succ w ih =>
    cases j with
    | zero => simp [bin]
    | succ j =>
      simp only [bin, List.getElem_cons_succ]
      rw [ih]
      congr 1
      omega

/-- Bit `j` of a string is the bit of its number that counts `2 ^ (length - 1 - j)` (R13). -/
theorem testBit_natOfBits {bs : Bits} {j : Nat} (h : j < bs.length) :
    (natOfBits bs).testBit (bs.length - 1 - j) = bs[j] := by
  rw [← bin_getElem (by simpa using h)]
  simp only [bin_natOfBits]

/-- Bit `7 - j` of a byte is bit `j` of the string it was made of, zero beyond the string's end (R12, R88). -/
theorem getLsbD_byteOfBits {bs : Bits} {j : Nat} (hlen : bs.length ≤ 8) (hj : j < 8) :
    (byteOfBits bs).getLsbD (7 - j) = bs.getD j false := by
  have hpad : natOfBits bs * 2 ^ (8 - bs.length) = natOfBits (bs ++ List.replicate (8 - bs.length) false) := by
    rw [natOfBits_append, natOfBits_replicate_false, List.length_replicate, Nat.add_zero]
  have hbit := testBit_natOfBits (bs := bs ++ List.replicate (8 - bs.length) false) (j := j)
    (by simp only [List.length_append, List.length_replicate]; omega)
  have htop : (bs ++ List.replicate (8 - bs.length) false).length - 1 - j = 7 - j := by
    simp only [List.length_append, List.length_replicate]
    omega
  have hlt : 7 - j < 8 := by omega
  rw [htop] at hbit
  rw [byteOfBits, BitVec.getLsbD_ofNat, hpad, hbit, decide_eq_true hlt, Bool.true_and, List.getElem_append]
  split <;> simp [*]

@[simp] theorem packBytes_length (bs : Bits) : (packBytes bs).length = (bs.length + 7) / 8 := by
  simp [packBytes]

/-- Bit address `i` of a packed string holds its bit `i`, zero beyond the string's end (R48). -/
theorem bitAt_packBytes {bs : Bits} {i : Nat} (hi : i < 8 * (packBytes bs).length) :
    bitAt (Memory.ofBytes (packBytes bs)) i = bs.getD i false := by
  have hj : i / 8 < (bs.length + 7) / 8 := by
    rw [packBytes_length] at hi
    omega
  have hbyte : (packBytes bs)[i / 8]? = some (byteOfBits ((bs.drop (8 * (i / 8))).take 8)) := by
    simp [packBytes, hj]
  have haddr : 8 * (i / 8) + i % 8 = i := Nat.div_add_mod i 8
  rw [bitAt, Memory.byte?_ofBytes, hbyte]
  simp only
  rw [getLsbD_byteOfBits (List.length_take_le ..) (Nat.mod_lt _ (by decide))]
  simp [List.getD_eq_getElem?_getD, Nat.mod_lt, haddr]

/-- Reading a packed buffer from its start gives the string and the zero padding (R63). -/
theorem bitsAt_packBytes (bs : Bits) :
    bitsAt (Memory.ofBytes (packBytes bs)) 0 (8 * (packBytes bs).length) =
      bs ++ List.replicate (8 * (packBytes bs).length - bs.length) false := by
  have hle : bs.length ≤ 8 * (packBytes bs).length := by
    rw [packBytes_length]
    omega
  refine List.ext_getElem (by simp only [bitsAt_length, List.length_append, List.length_replicate]; omega) ?_
  intro i hi _
  rw [bitsAt_getElem, Nat.zero_add, bitAt_packBytes (by simpa using hi), List.getElem_append]
  split <;> simp [*]

end Sys2Proof.Machine
end

section
/-! PROOFS. DEC as a reader of its unread bits (`45_run_decoder.md` R164): each step in RUN takes one pattern off their
front, so positions need not be spoken of. -/

namespace Sys2Proof.Machine

/-! ## The unread bits -/

/-- The bits from `BSR.r_pos` to the end of the buffer. -/
def Bsr.unread (r : Bsr) : Bits := bitsAt r.mem r.rPos (8 * r.mem.size - r.rPos)

/-- The padding check looks at all that is unread (R94). -/
theorem finishRead_eq_ok {r : Bsr} : finishRead r = .ok ↔ ∀ b ∈ r.unread, b = false :=
  finishReadAt_eq_ok r.mem r.rPos

/-- A nonempty string at the front of the unread bits stands at `r_pos`; the rest is unread after it. -/
theorem Bsr.unread_eq_append {r : Bsr} {bs rest : Bits} (hne : bs ≠ []) (h : r.unread = bs ++ rest) :
    r.rPos + bs.length ≤ 8 * r.mem.size ∧ bitsAt r.mem r.rPos bs.length = bs ∧
      bitsAt r.mem (r.rPos + bs.length) (8 * r.mem.size - (r.rPos + bs.length)) = rest := by
  have hpos : 0 < bs.length := List.length_pos_iff.mpr hne
  have hlen : 8 * r.mem.size - r.rPos = bs.length + rest.length := by
    simpa [Bsr.unread] using congrArg List.length h
  have hrest : 8 * r.mem.size - (r.rPos + bs.length) = rest.length := by omega
  obtain ⟨hfront, hback⟩ := bitsAt_eq_append h
  rw [hrest]
  exact ⟨by omega, hfront, hback⟩

theorem encode_ne_nil {tbl : Mode} {i : Instr} (hwf : i.wf = true) (htbl : i.inTable tbl = true) :
    encode i ≠ [] := by
  rcases pattern_forms hwf htbl with ⟨_, z, x, hx, rfl⟩ | ⟨_, z, rfl⟩ | ⟨x, hx, rfl⟩
  · simp [encode_zPattern z hx, zBits]
  · simp [encode_oPattern, oBits]
  · simp [encode_overflowPattern tbl hx, overflowBits, Config.zMax]

/-! ## One pattern -/

@[simp] theorem terminate_bsr (s : State) : (terminate s).dec.bsr = s.dec.bsr := by
  rcases terminate_cases s with ⟨_, h⟩ | ⟨_, _, h⟩ | ⟨_, _, h⟩ <;> simp [h]

/-- No pattern moves the read sequencer: the fetch has (R76). -/
theorem exec_bsr {i : Instr} {s t : State} (h : exec i s = .next t) : t.dec.bsr = s.dec.bsr := by
  rcases exec_cases i s with ⟨_, _, he⟩ | ⟨_, he⟩ | ⟨_, he⟩ | ⟨_, he⟩
  all_goals
    obtain rfl := Host.Outcome.next.inj (he.symm.trans h)
    simp [afterData]

/-- The state in which a pattern is executed: `r_pos` stands just after it (R76). -/
def State.past (s : State) (i : Instr) : State := s.seek (s.dec.bsr.rPos + (encode i).length)

/-- A step of DEC in RUN that goes on and leaves less to read. -/
structure DecMove (s t : State) : Prop where
  run : s.dec.status = .run
  step : decStep s = .next t
  shorter : t.dec.bsr.unread.length < s.dec.bsr.unread.length

/-- In RUN, a pattern of the selected table at the front of the unread bits is executed and taken off (R164). -/
theorem decMove_of_exec {s t : State} {i : Instr} {rest : Bits} (hrun : s.dec.status = .run)
    (hwf : i.wf = true) (htbl : i.inTable (tableOf s.dec) = true) (hunread : s.dec.bsr.unread = encode i ++ rest)
    (hexec : exec i (s.past i) = .next t) : DecMove s t ∧ t.dec.bsr.unread = rest := by
  have hne := encode_ne_nil hwf htbl
  obtain ⟨hle, hfront, hback⟩ := Bsr.unread_eq_append hne hunread
  have hdecode := decode_of_standsAt hwf htbl ⟨hle, hfront⟩
  have hrest : t.dec.bsr.unread = rest := by
    rw [exec_bsr hexec]
    exact hback
  refine ⟨⟨hrun, ?_, ?_⟩, hrest⟩
  · rw [decStep, fetch, hdecode]
    exact hexec
  · have hpos := List.length_pos_iff.mpr hne
    rw [hunread, hrest, List.length_append]
    omega

/-! ## The loop -/

theorem decLoop_of_not_run {s : State} (h : s.dec.status ≠ .run) (fuel : Nat) : decLoop fuel s = s := by
  cases fuel with
  | zero => rfl
  | succ fuel => exact if_neg h

/-- Moves that end outside RUN are what the loop does, one turn for each unread bit being enough (R222). -/
theorem decLoop_of_moves {s t : State} (h : Relation.ReflTransGen DecMove s t) (ht : t.dec.status ≠ .run)
    {fuel : Nat} (hfuel : s.dec.bsr.unread.length ≤ fuel) : decLoop fuel s = t := by
  induction h using Relation.ReflTransGen.head_induction_on generalizing fuel with
  | refl => exact decLoop_of_not_run ht fuel
  | head hmove _ ih =>
    obtain ⟨hrun, hstep, hshorter⟩ := hmove
    obtain ⟨fuel, rfl⟩ : ∃ f, fuel = f + 1 := Nat.exists_eq_add_one.mpr (by omega)
    rw [decLoop, if_pos hrun, hstep]
    exact ih (by omega)

end Sys2Proof.Machine
end

section
/-! PROOFS. DEC reads back what `symbolBits` lays out: pattern, symbol, run, canonical stream
(`45_run_decoder.md` R166 to R173), and with it the round trip (R183). -/

namespace Sys2Proof.Machine

/-- DEC is in RUN with these registers and output, and has `rest` to read. -/
structure Dec.Reading (d : Dec) (mode runMode : Mode) (hold : Bool) (out rest : Bits) : Prop where
  status_eq : d.status = .run
  mode_eq : d.mode = mode
  runMode_eq : d.runMode = runMode
  hold_eq : d.hold = hold
  out_eq : d.out = out
  unread_eq : d.bsr.unread = rest

section Patterns
variable {s : State} {mode runMode : Mode} {hold : Bool} {out rest : Bits}

theorem Dec.Reading.tableOf_eq {d : Dec} (h : d.Reading mode runMode hold out rest) :
    tableOf d = if hold then runMode else mode := by
  rw [tableOf, h.hold_eq, h.runMode_eq, h.mode_eq]

/-- `CONT` sets the hold (R169). -/
theorem exists_move_cont (h : s.dec.Reading mode runMode hold out (encode .cont ++ rest)) :
    ∃ t, DecMove s t ∧ t.dec.Reading mode runMode true out rest := by
  obtain ⟨hrun, hmode, hrunMode, _, hout, hunread⟩ := h
  obtain ⟨hmove, hrest⟩ := decMove_of_exec hrun rfl rfl hunread rfl
  exact ⟨_, hmove, hrun, hmode, hrunMode, rfl, hout, hrest⟩

/-- `MCHG` toggles the mode (R168). -/
theorem exists_move_mchg (h : s.dec.Reading mode runMode hold out (encode .mchg ++ rest)) :
    ∃ t, DecMove s t ∧ t.dec.Reading mode.other runMode hold out rest := by
  obtain ⟨hrun, hmode, hrunMode, hhold, hout, hunread⟩ := h
  obtain ⟨hmove, hrest⟩ := decMove_of_exec hrun rfl rfl hunread rfl
  exact ⟨_, hmove, hrun, congrArg Mode.other hmode, hrunMode, hhold, hout, hrest⟩

/-- `TERM` before zeros only ends the call with OK and no warning (R170, R173). -/
theorem exists_move_term (h : s.dec.Reading mode runMode hold out (encode .term ++ rest))
    (hzeros : ∀ b ∈ rest, b = false) :
    ∃ t, DecMove s t ∧ t.dec.out = out ∧ t.dec.status = .ok ∧ t.dec.padNz = false := by
  obtain ⟨hrun, _, _, _, hout, hunread⟩ := h
  obtain ⟨hmove, hrest⟩ := decMove_of_exec hrun rfl rfl hunread rfl
  rw [terminate_bsr] at hrest
  have hpad : finishRead (s.past .term).dec.bsr = .ok := by rwa [finishRead_eq_ok, hrest]
  have hend : terminate (s.past .term) = (s.past .term).withDec ((s.past .term).dec.finish .ok false) := by
    rw [terminate, hpad]
  rw [hend] at hmove
  exact ⟨_, hmove, hout, rfl, rfl⟩

/-- `EncodeLen` of a length in the selected table is read as a run of that length (R81, R165 to R167). -/
theorem exists_move_len {tbl : Mode} {n : Nat} (hpos : 1 ≤ n) (hn : n ≤ Config.maxLen tbl)
    (h : s.dec.Reading mode runMode hold out ((encodeLen tbl n).getD [] ++ rest))
    (htbl : (if hold then runMode else mode) = tbl) :
    ∃ t, DecMove s t ∧ t.dec.Reading (if hold then mode else mode.other) tbl false
      (out ++ List.replicate n tbl.bit) rest := by
  obtain ⟨i, hwf, hin, hlen⟩ := exists_pattern_of_len hpos hn
  have htable := h.tableOf_eq.trans htbl
  obtain ⟨hrun, hmode, _, hhold, hout, hunread⟩ := h
  rw [encodeLen_of_dataLen hwf hin hlen, Option.getD_some] at hunread
  obtain ⟨hmove, hrest⟩ := decMove_of_exec hrun hwf (by rwa [htable]) hunread (exec_of_dataLen hlen _)
  refine ⟨_, hmove, hrun, ?_, htable, rfl, ?_, hrest⟩
  · rw [← hhold, ← hmode]
    rfl
  · rw [← htable, ← hout]
    rfl

end Patterns

/-! ## Runs -/

section Runs
variable {s : State} {mode runMode : Mode} {out rest : Bits}

/-- Continuation symbols of the last run's mode extend it by the sum of their lengths (R167). -/
theorem exists_moves_continuations {ks : List Nat} (hks : ∀ k ∈ ks, 1 ≤ k ∧ k ≤ Config.maxLen runMode)
    (h : s.dec.Reading mode runMode false out
      ((ks.map (.continuation runMode)).flatMap symbolBits ++ rest)) :
    ∃ t, Relation.ReflTransGen DecMove s t ∧
      t.dec.Reading mode runMode false (out ++ List.replicate ks.sum runMode.bit) rest := by
  induction ks generalizing s out with
  | nil => exact ⟨s, .refl, by simpa using h⟩
  | cons k ks ih =>
    obtain ⟨⟨hpos, hk⟩, hks⟩ := List.forall_mem_cons.mp hks
    simp only [List.map_cons, List.flatMap_cons, symbolBits, List.append_assoc] at h
    obtain ⟨t, hmarker, ht⟩ := exists_move_cont h
    obtain ⟨u, hvalue, hu⟩ := exists_move_len hpos hk ht rfl
    obtain ⟨w, hmoves, hw⟩ := ih hks hu
    refine ⟨w, .head hmarker (.head hvalue hmoves), ?_⟩
    rwa [List.sum_cons, List.replicate_add, ← List.append_assoc]

theorem pieces_sum (m : Mode) (fuel L : Nat) : (pieces m fuel L).sum = L := by
  induction fuel generalizing L with
  | zero => simp [pieces]
  | succ fuel ih =>
    rw [pieces]
    split
    · simp
    · rw [List.sum_cons, ih]
      omega

/-- A run of the active mode's bit, split or not, is read back whole and leaves the other mode active (R148, R166). -/
theorem exists_moves_run {v : Bool} {n : Nat} (hn : 1 ≤ n)
    (h : s.dec.Reading (Mode.ofBit v) runMode false out ((runSymbols v n).flatMap symbolBits ++ rest)) :
    ∃ t, Relation.ReflTransGen DecMove s t ∧
      t.dec.Reading (Mode.ofBit !v) (Mode.ofBit v) false (out ++ List.replicate n v) rest := by
  have hsum := pieces_sum (Mode.ofBit v) n n
  have hrange : ∀ k ∈ pieces (Mode.ofBit v) n n, 1 ≤ k ∧ k ≤ Config.maxLen (Mode.ofBit v) :=
    fun _ hk => pieces_in_range hn le_rfl hk
  rw [runSymbols] at h
  cases hp : pieces (Mode.ofBit v) n n with
  | nil =>
    rw [hp, List.sum_nil] at hsum
    omega
  | cons a ks =>
    rw [hp] at h hsum hrange
    obtain ⟨⟨hpos, ha⟩, hks⟩ := List.forall_mem_cons.mp hrange
    simp only [List.flatMap_cons, symbolBits, List.append_assoc] at h
    obtain ⟨t, hfirst, ht⟩ := exists_move_len hpos ha h rfl
    obtain ⟨u, hmoves, hu⟩ := exists_moves_continuations hks ht
    refine ⟨u, .head hfirst hmoves, ?_⟩
    rw [Mode.ofBit_bit] at hu
    rwa [← hsum, List.sum_cons, List.replicate_add, ← List.append_assoc, Mode.ofBit_not]

/-- The bits of which a list of runs consists. -/
def runBits (rs : List (Bool × Nat)) : Bits := rs.flatMap fun r => List.replicate r.2 r.1

/-- Nonempty runs of alternating value, the first of the active mode's bit, are read back one after the other. -/
theorem exists_moves_runs {rs : List (Bool × Nat)} (hpos : ∀ r ∈ rs, 1 ≤ r.2)
    (hchain : rs.IsChain fun r r' => r'.1 = !r.1) (hhead : ∀ r ∈ rs.head?, Mode.ofBit r.1 = mode)
    (h : s.dec.Reading mode runMode false out
      ((rs.flatMap fun r => runSymbols r.1 r.2).flatMap symbolBits ++ rest)) :
    ∃ t mode' runMode', Relation.ReflTransGen DecMove s t ∧
      t.dec.Reading mode' runMode' false (out ++ runBits rs) rest := by
  induction rs generalizing s mode runMode out with
  | nil => exact ⟨s, mode, runMode, .refl, by simpa [runBits] using h⟩
  | cons r rs ih =>
    obtain ⟨hr, hpos⟩ := List.forall_mem_cons.mp hpos
    obtain ⟨hnext, hchain⟩ := List.isChain_cons.mp hchain
    obtain rfl : Mode.ofBit r.1 = mode := hhead r rfl
    simp only [List.flatMap_cons, List.flatMap_append, List.append_assoc] at h
    obtain ⟨t, hrun, ht⟩ := exists_moves_run hr h
    obtain ⟨u, mode', runMode', hmoves, hu⟩ :=
      ih hpos hchain (fun r' hr' => congrArg Mode.ofBit (hnext r' hr')) ht
    exact ⟨u, mode', runMode', hrun.trans hmoves, by simpa [runBits] using hu⟩

end Runs

/-! ## The runs of a bit sequence -/

/-- What one more bit in front does to the runs: the only one, one more of the first, or a new first one (R141). -/
theorem runsOf_cons_cases (b : Bool) (bs : Bits) :
    (runsOf bs = [] ∧ runsOf (b :: bs) = [(b, 1)]) ∨
    (∃ n rs, runsOf bs = (b, n) :: rs ∧ runsOf (b :: bs) = (b, n + 1) :: rs) ∨
    (∃ n rs, runsOf bs = (!b, n) :: rs ∧ runsOf (b :: bs) = (b, 1) :: (!b, n) :: rs) := by
  rw [runsOf]
  cases h : runsOf bs with
  | nil => exact .inl ⟨rfl, rfl⟩
  | cons r rs =>
    obtain ⟨v, n⟩ := r
    by_cases hv : v = b
    · subst hv
      exact .inr (.inl ⟨n, rs, rfl, by simp⟩)
    · obtain rfl : v = !b := Bool.eq_not.mpr hv
      exact .inr (.inr ⟨n, rs, rfl, by simp⟩)

theorem runBits_runsOf (b : Bits) : runBits (runsOf b) = b := by
  induction b with
  | nil => rfl
  | cons x b ih =>
    rcases runsOf_cons_cases x b with ⟨h, h'⟩ | ⟨n, rs, h, h'⟩ | ⟨n, rs, h, h'⟩
    all_goals
      rw [h] at ih
      rw [h', ← ih]
      simp [runBits, List.replicate_succ]

theorem runsOf_pos (b : Bits) : ∀ r ∈ runsOf b, 1 ≤ r.2 := by
  induction b with
  | nil => simp [runsOf]
  | cons x b ih =>
    rcases runsOf_cons_cases x b with ⟨h, h'⟩ | ⟨n, rs, h, h'⟩ | ⟨n, rs, h, h'⟩
    all_goals
      rw [h] at ih
      rw [h']
      simp_all

/-- Runs are maximal, so their values alternate (R141). -/
theorem runsOf_isChain (b : Bits) : (runsOf b).IsChain fun r r' => r'.1 = !r.1 := by
  induction b with
  | nil => exact .nil
  | cons x b ih =>
    rcases runsOf_cons_cases x b with ⟨h, h'⟩ | ⟨n, rs, h, h'⟩ | ⟨n, rs, h, h'⟩
    all_goals
      rw [h] at ih
      rw [h']
      simp_all [List.isChain_cons]

theorem runsOf_head_value (b : Bits) : ∀ r ∈ (runsOf b).head?, b.head? = some r.1 := by
  cases b with
  | nil => simp [runsOf]
  | cons x b =>
    rcases runsOf_cons_cases x b with ⟨_, h'⟩ | ⟨n, rs, _, h'⟩ | ⟨n, rs, _, h'⟩
    all_goals simp [h']

/-! ## The canonical stream -/

/-- The bits of the optional mode change, the runs, and the termination (R152). -/
theorem streamBits_eq (b : Bits) :
    streamBits b = (if b.head? = some true then encode .mchg else []) ++
      (((runsOf b).flatMap fun r => runSymbols r.1 r.2).flatMap symbolBits ++ encode .term) := by
  unfold streamBits streamSymbols
  split <;> simp [symbolBits]

/-- The optional mode change makes the mode of the first run the active one (R152). -/
theorem exists_moves_start {s : State} {b rest : Bits}
    (h : s.dec.Reading .mode0 .mode0 false [] ((if b.head? = some true then encode .mchg else []) ++ rest)) :
    ∃ t mode, Relation.ReflTransGen DecMove s t ∧ t.dec.Reading mode .mode0 false [] rest ∧
      ∀ v ∈ b.head?, Mode.ofBit v = mode := by
  split at h <;> rename_i hhead
  · obtain ⟨t, hmove, ht⟩ := exists_move_mchg h
    exact ⟨t, .mode1, .single hmove, ht, by simp [hhead, Mode.ofBit]⟩
  · refine ⟨s, .mode0, .refl, h, fun v hv => ?_⟩
    cases v with
    | false => rfl
    | true => exact absurd hv hhead

/-- A DEC that has just started reads a canonical stream before zeros to its end. -/
theorem exists_moves_stream {s : State} {b pad : Bits}
    (h : s.dec.Reading .mode0 .mode0 false [] (streamBits b ++ pad)) (hpad : ∀ x ∈ pad, x = false) :
    ∃ t, Relation.ReflTransGen DecMove s t ∧ t.dec.out = b ∧ t.dec.status = .ok ∧ t.dec.padNz = false := by
  rw [streamBits_eq, List.append_assoc, List.append_assoc] at h
  obtain ⟨t, mode, hstart, ht, hmode⟩ := exists_moves_start h
  obtain ⟨u, _, _, hruns, hu⟩ := exists_moves_runs (runsOf_pos b) (runsOf_isChain b)
    (fun r hr => hmode r.1 (runsOf_head_value b r hr)) ht
  rw [runBits_runsOf, List.nil_append] at hu
  obtain ⟨w, hterm, hw⟩ := exists_move_term hu hpad
  exact ⟨w, (hstart.trans hruns).tail hterm, hw⟩

theorem started_unread (buf : List Byte) (strict : Bool) :
    (Dec.started buf strict).bsr.unread = bitsAt (Memory.ofBytes buf) 0 (8 * buf.length) := by
  rw [Bsr.unread, Dec.started_mem, Dec.started_rPos, Memory.size_ofBytes, Nat.sub_zero]

/-- Settles O49: the packed stream is the stream and zero padding, which DEC reads symbol by symbol, each run as the
encoder split it, until `TERM` finds only zeros after it. -/
theorem roundTrip : Obligations.RoundTrip := by
  intro b strict
  have hunread := started_unread (compress b) strict
  have hlen := congrArg List.length hunread
  rw [bitsAt_length] at hlen
  obtain ⟨t, hmoves, hout, hok, hnz⟩ := exists_moves_stream
    (s := State.reset.withDec (Dec.started (compress b) strict))
    ⟨rfl, rfl, rfl, rfl, rfl, hunread.trans (bitsAt_packBytes (streamBits b))⟩
    fun x hx => List.eq_of_mem_replicate hx
  have hloop : decodeFrom State.reset (compress b) strict = t :=
    decLoop_of_moves hmoves (by simp [hok]) (hlen.le.trans (Nat.le_succ _))
  simp [decompress, hloop, hout, hok, hnz]

end Sys2Proof.Machine
end

section
/-! PROOFS. The step of DEC as a function of DEC alone (`45_run_decoder.md` R161 to R173): what every pattern does to
its registers and what it leaves unchanged. -/

namespace Sys2Proof.Machine

/-! ## Meanings of the patterns -/

theorem afterData_of_hold_true {s : State} (h : s.dec.hold = true) (n : Nat) :
    afterData n s = s.withDec (s.dec.continued n) := by
  simp [afterData, State.withDec, Dec.continued, tableOf, h]

/-- Settles O1: each Mode0 tier is `ExecData` of the length of its rule. -/
theorem mode0TiersAppendTheirRuns : Obligations.Mode0TiersAppendTheirRuns := by
  intro s
  have tier {i : Instr} {n : Nat} (h : dataLen i = some n) := exec_of_dataLen h s
  exact ⟨fun _ => tier rfl, fun _ => tier rfl, fun _ => tier rfl, fun _ => tier rfl, fun _ => tier rfl,
    fun _ => tier rfl, fun _ => tier rfl, fun _ => tier rfl, fun _ => tier rfl, fun _ => tier rfl,
    fun _ => tier rfl, fun _ => tier rfl⟩

/-- Settles O2: each Mode1 tier is `ExecData` of its number. -/
theorem mode1TiersAppendTheirRuns : Obligations.Mode1TiersAppendTheirRuns := by
  intro s
  have tier {i : Instr} {n : Nat} (h : dataLen i = some n) := exec_of_dataLen h s
  exact ⟨tier rfl, tier rfl, tier rfl, tier rfl, tier rfl, tier rfl, tier rfl, tier rfl, tier rfl, tier rfl,
    tier rfl, tier rfl⟩

/-- Settles O3: both overflow tiers are `ExecData` of `OVF_MIN + x`, for a control suffix too. -/
theorem overflowTiersAppendTheirRuns : Obligations.OverflowTiersAppendTheirRuns :=
  fun s _ _ => ⟨exec_of_dataLen rfl s, exec_of_dataLen rfl s⟩

/-- Settles O5: under a hold `ExecData` is the value pattern of R167. -/
theorem valuePatternExtendsRun : Obligations.ValuePatternExtendsRun := by
  intro i n s _ _ hlen hhold
  rw [exec_of_dataLen hlen, afterData_of_hold_true hhold]
  rfl

theorem Mode.bit_eq_decide (m : Mode) : m.bit = decide (m = .mode1) := by cases m <;> rfl

/-- Settles O6: `ExecData` appends the bit of the selected table, which is the pattern's own. -/
theorem tablesAppendTheirOwnBit : Obligations.TablesAppendTheirOwnBit := by
  rintro i n m s hlen - rfl
  refine ⟨_, exec_of_dataLen hlen s, ?_, rfl, rfl, fun hhold => ?_, fun hhold => ?_, rfl, rfl, rfl, rfl, rfl, rfl⟩
  · rw [← Mode.bit_eq_decide]
    rfl
  · simp [afterData, hhold]
  · simp [afterData, tableOf, hhold]

/-- Settles O7: the marker is `DEC.hold <- 1`. -/
theorem continuationMarkerSetsHold : Obligations.ContinuationMarkerSetsHold := fun _ => rfl

/-- Settles O8: the mode change is `DEC.mode <- other(DEC.mode)`, read for each of the two modes. -/
theorem modeChangeToggles : Obligations.ModeChangeToggles := by
  intro s
  have toggle : exec .mchg s = .next { s with dec := { s.dec with mode := s.dec.mode.other } } := rfl
  refine ⟨fun hmode => ?_, fun hmode => ?_⟩
  · rw [toggle, hmode]
    rfl
  · rw [toggle, hmode]
    rfl

/-! ## Padding validation -/

theorem mem_bitsAt {m : Memory} {pos n : Nat} {b : Bool} :
    b ∈ bitsAt m pos n ↔ ∃ j, j < n ∧ bitAt m (pos + j) = b := by
  rw [List.mem_iff_getElem]
  constructor
  · rintro ⟨j, hj, rfl⟩
    exact ⟨j, by simpa using hj, (bitsAt_getElem ..).symm⟩
  · rintro ⟨j, hj, rfl⟩
    exact ⟨j, by simpa using hj, bitsAt_getElem ..⟩

/-- The check passes exactly when every bit from `r_pos` to the end of the buffer is 0 (R93, R94). -/
theorem finishRead_eq_ok_iff_bitAt {r : Bsr} :
    finishRead r = .ok ↔ ∀ a, r.rPos ≤ a → a < 8 * r.mem.size → bitAt r.mem a = false := by
  rw [finishRead_eq_ok, Bsr.unread]
  constructor
  · intro h a hlow hhigh
    exact h _ (mem_bitsAt.mpr ⟨a - r.rPos, by omega, by rw [Nat.add_sub_cancel' hlow]⟩)
  · rintro h b hb
    obtain ⟨j, hj, rfl⟩ := mem_bitsAt.mp hb
    exact h _ (Nat.le_add_right ..) (by omega)

theorem finishRead_eq_paddingError {r : Bsr} : finishRead r = .paddingError ↔ finishRead r ≠ .ok := by
  cases finishRead r <;> simp

theorem finishRead_eq_paddingError_iff_bitAt {r : Bsr} :
    finishRead r = .paddingError ↔ ∃ a, r.rPos ≤ a ∧ a < 8 * r.mem.size ∧ bitAt r.mem a = true := by
  rw [finishRead_eq_paddingError, ne_eq, finishRead_eq_ok_iff_bitAt]
  push Not
  simp only [ne_eq, Bool.not_eq_false]

/-- Settles O10: the check looks at the unread bits, and at the end of the buffer there are none. -/
theorem paddingCheckSeesEveryBit : Obligations.PaddingCheckSeesEveryBit := by
  intro r
  refine ⟨finishRead_eq_ok_iff_bitAt, finishRead_eq_paddingError_iff_bitAt, fun hend => ?_⟩
  rw [finishRead_eq_ok_iff_bitAt]
  omega

/-- Settles O9: the three outcomes of `Terminate()`, told apart by the padding check and the flag. -/
theorem terminationSetsStatus : Obligations.TerminationSetsStatus := by
  intro s
  have hnz : finishRead s.dec.bsr = .paddingError ↔ nonzeroPadding s := finishRead_eq_paddingError_iff_bitAt
  have hterm : exec .term s = .next (terminate s) := rfl
  rw [hterm, ← hnz]
  rcases terminate_cases s with ⟨hpad, h⟩ | ⟨hpad, hstrict, h⟩ | ⟨hpad, hstrict, h⟩ <;> rw [h, hpad]
  · exact ⟨fun _ => rfl, nofun, nofun⟩
  · exact ⟨fun hne => absurd rfl hne, fun _ _ => rfl, fun _ hlenient => by simp [hlenient] at hstrict⟩
  · exact ⟨fun hne => absurd rfl hne, fun _ hs => by simp [hs] at hstrict, fun _ _ => rfl⟩

/-! ## Execution as a function of DEC -/

/-- `BSR.r_pos <- p` (R28). -/
def Dec.seek (d : Dec) (p : Nat) : Dec := { d with bsr := { d.bsr with rPos := p } }

/-- `Terminate()` on DEC (R173). -/
def Dec.terminated (d : Dec) : Dec :=
  match finishRead d.bsr with
  | .ok => d.finish .ok false
  | .paddingError => d.finish (if d.strict then .padding else .ok) true

/-- What a pattern does to DEC (R164). -/
def Dec.exec (i : Instr) (d : Dec) : Dec :=
  match i with
  | .cont => d.setHold
  | .mchg => d.flipMode
  | .term => d.terminated
  | i => d.data ((dataLen i).getD 0)

/-- `DecStep` on DEC (R164). -/
def Dec.next (d : Dec) : Dec :=
  match decode (tableOf d) d.bsr.mem d.bsr.rPos with
  | .pattern i p => (d.seek p).exec i
  | .endOfInput p => (d.seek p).finish .truncated d.padNz

theorem terminate_eq (s : State) : terminate s = s.withDec s.dec.terminated := by
  rcases terminate_cases s with ⟨hpad, h⟩ | ⟨hpad, hstrict, h⟩ | ⟨hpad, hstrict, h⟩ <;>
    simp [Dec.terminated, *]

theorem Dec.exec_of_dataLen {i : Instr} {n : Nat} (h : dataLen i = some n) (d : Dec) : d.exec i = d.data n := by
  unfold Dec.exec
  split
  · cases h
  · cases h
  · cases h
  · rw [h, Option.getD_some]

/-- An instruction acts on DEC and on nothing else. -/
theorem exec_eq (i : Instr) (s : State) : exec i s = .next (s.withDec (s.dec.exec i)) := by
  rcases exec_cases i s with ⟨n, hlen, h⟩ | ⟨rfl, h⟩ | ⟨rfl, h⟩ | ⟨rfl, h⟩
  · rw [h, ← execData_eq, Dec.exec_of_dataLen hlen]
    rfl
  · exact h
  · exact h
  · rw [h, terminate_eq]
    rfl

/-- `DecStep` acts on DEC and on nothing else, and always goes on. -/
theorem decStep_eq (s : State) : decStep s = .next (s.withDec s.dec.next) := by
  rw [Dec.next]
  rcases decStep_cases s with ⟨i, p, hdecode, h⟩ | ⟨p, hdecode, h⟩
  · rw [h, hdecode, exec_eq]
    rfl
  · rw [h, hdecode]
    rfl

theorem decTurn_eq_next {s t : State} :
    decTurn s = .next t ↔ s.dec.status = .run ∧ t = s.withDec s.dec.next := by
  unfold decTurn
  split
  · simp [decStep_eq, eq_comm, *]
  · simp [*]

/-! ## What a pattern leaves unchanged -/

@[simp] theorem Dec.data_bsr (d : Dec) (n : Nat) : (d.data n).bsr = d.bsr := by unfold Dec.data; split <;> rfl
@[simp] theorem Dec.data_strict (d : Dec) (n : Nat) : (d.data n).strict = d.strict := by
  unfold Dec.data; split <;> rfl
@[simp] theorem Dec.data_status (d : Dec) (n : Nat) : (d.data n).status = d.status := by
  unfold Dec.data; split <;> rfl
@[simp] theorem Dec.data_padNz (d : Dec) (n : Nat) : (d.data n).padNz = d.padNz := by
  unfold Dec.data; split <;> rfl
theorem Dec.out_le_data (d : Dec) (n : Nat) : d.out <+: (d.data n).out := by
  unfold Dec.data; split <;> exact List.prefix_append _ _

@[simp] theorem Dec.terminated_bsr (d : Dec) : d.terminated.bsr = d.bsr := by
  unfold Dec.terminated; split <;> rfl
@[simp] theorem Dec.terminated_strict (d : Dec) : d.terminated.strict = d.strict := by
  unfold Dec.terminated; split <;> rfl
@[simp] theorem Dec.terminated_out (d : Dec) : d.terminated.out = d.out := by
  unfold Dec.terminated; split <;> rfl

/-- Everything a pattern can do to DEC. -/
theorem Dec.exec_cases (i : Instr) (d : Dec) :
    (∃ n, dataLen i = some n ∧ d.exec i = d.data n) ∨ (i = .cont ∧ d.exec i = d.setHold) ∨
    (i = .mchg ∧ d.exec i = d.flipMode) ∨ (i = .term ∧ d.exec i = d.terminated) := by
  rcases Machine.exec_cases i (State.reset.withDec d) with ⟨n, hlen, _⟩ | ⟨rfl, _⟩ | ⟨rfl, _⟩ | ⟨rfl, _⟩
  · exact .inl ⟨n, hlen, Dec.exec_of_dataLen hlen d⟩
  · exact .inr (.inl ⟨rfl, rfl⟩)
  · exact .inr (.inr (.inl ⟨rfl, rfl⟩))
  · exact .inr (.inr (.inr ⟨rfl, rfl⟩))

@[simp] theorem Dec.exec_bsr (i : Instr) (d : Dec) : (d.exec i).bsr = d.bsr := by
  rcases d.exec_cases i with ⟨_, _, h⟩ | ⟨_, h⟩ | ⟨_, h⟩ | ⟨_, h⟩ <;> simp [h]

@[simp] theorem Dec.exec_strict (i : Instr) (d : Dec) : (d.exec i).strict = d.strict := by
  rcases d.exec_cases i with ⟨_, _, h⟩ | ⟨_, h⟩ | ⟨_, h⟩ | ⟨_, h⟩ <;> simp [h]

/-- No pattern withdraws output. -/
theorem Dec.out_le_exec (i : Instr) (d : Dec) : d.out <+: (d.exec i).out := by
  rcases d.exec_cases i with ⟨n, _, h⟩ | ⟨_, h⟩ | ⟨_, h⟩ | ⟨_, h⟩ <;> rw [h]
  · exact d.out_le_data n
  · exact List.prefix_refl _
  · exact List.prefix_refl _
  · rw [Dec.terminated_out]

/-- Only `TERM` ends the call (R164, R170). -/
theorem Dec.exec_of_ne_term {i : Instr} (h : i ≠ .term) (d : Dec) :
    (d.exec i).status = d.status ∧ (d.exec i).padNz = d.padNz := by
  rcases d.exec_cases i with ⟨n, _, he⟩ | ⟨_, he⟩ | ⟨_, he⟩ | ⟨hterm, _⟩
  · rw [he, Dec.data_status, Dec.data_padNz]
    exact ⟨rfl, rfl⟩
  · rw [he]
    exact ⟨rfl, rfl⟩
  · rw [he]
    exact ⟨rfl, rfl⟩
  · exact absurd hterm h

/-- Settles O11: an instruction acts on DEC alone and keeps its read sequencer. -/
theorem noPatternWritesMemory : Obligations.NoPatternWritesMemory := by
  intro i s
  refine ⟨_, exec_eq i s, fun _ => ?_, ?_, ?_, ?_, s.dec.exec_strict i, rfl, rfl, s.dec.out_le_exec i⟩ <;>
    rw [State.withDec_dec, Dec.exec_bsr]

/-! ## What a step of DEC does -/

@[simp] theorem Dec.seek_status (d : Dec) (p : Nat) : (d.seek p).status = d.status := rfl
@[simp] theorem Dec.seek_strict (d : Dec) (p : Nat) : (d.seek p).strict = d.strict := rfl
@[simp] theorem Dec.seek_padNz (d : Dec) (p : Nat) : (d.seek p).padNz = d.padNz := rfl
@[simp] theorem Dec.seek_out (d : Dec) (p : Nat) : (d.seek p).out = d.out := rfl
@[simp] theorem Dec.seek_buf (d : Dec) (p : Nat) : (d.seek p).bsr.buf = d.bsr.buf := rfl
@[simp] theorem Dec.seek_mem (d : Dec) (p : Nat) : (d.seek p).bsr.mem = d.bsr.mem := rfl
@[simp] theorem Dec.seek_rPos (d : Dec) (p : Nat) : (d.seek p).bsr.rPos = p := rfl

/-- Everything a step of DEC can do: a pattern executed at the position after it, or the trap (R164). -/
theorem Dec.next_cases (d : Dec) :
    (∃ i p, decode (tableOf d) d.bsr.mem d.bsr.rPos = .pattern i p ∧ d.next = (d.seek p).exec i) ∨
    (∃ p, decode (tableOf d) d.bsr.mem d.bsr.rPos = .endOfInput p ∧
      d.next = (d.seek p).finish .truncated d.padNz) := by
  unfold Dec.next
  cases decode (tableOf d) d.bsr.mem d.bsr.rPos with
  | pattern i p => exact .inl ⟨i, p, rfl, rfl⟩
  | endOfInput p => exact .inr ⟨p, rfl, rfl⟩

@[simp] theorem Dec.next_strict (d : Dec) : d.next.strict = d.strict := by
  rcases d.next_cases with ⟨i, p, _, h⟩ | ⟨p, _, h⟩ <;> simp [h]

@[simp] theorem Dec.next_buf (d : Dec) : d.next.bsr.buf = d.bsr.buf := by
  rcases d.next_cases with ⟨i, p, _, h⟩ | ⟨p, _, h⟩ <;> simp [h]

@[simp] theorem Dec.next_mem (d : Dec) : d.next.bsr.mem = d.bsr.mem := by
  rw [Bsr.mem, Dec.next_buf, Bsr.mem]

theorem Dec.out_le_next (d : Dec) : d.out <+: d.next.out := by
  rcases d.next_cases with ⟨i, p, _, h⟩ | ⟨p, _, h⟩ <;> rw [h]
  · exact (d.seek p).out_le_exec i
  · exact List.prefix_refl _

/-- The position stays inside the buffer and does not go back (R76, R91). -/
theorem Dec.next_rPos (d : Dec) :
    d.bsr.rPos ≤ d.next.bsr.rPos ∧ (d.bsr.rPos ≤ 8 * d.bsr.mem.size → d.next.bsr.rPos ≤ 8 * d.bsr.mem.size) := by
  rcases d.next_cases with ⟨i, p, hdecode, h⟩ | ⟨p, hdecode, h⟩ <;> rw [h]
  · obtain ⟨hlt, hle⟩ := decode_pattern_bounds hdecode
    rw [Dec.exec_bsr, Dec.seek_rPos]
    omega
  · obtain ⟨hle, hend⟩ := decode_endOfInput_bounds hdecode
    rw [Dec.finish_bsr, Dec.seek_rPos]
    omega

end Sys2Proof.Machine
end

section
/-! PROOFS. The two tables as complete codes (`30_encoding.md` sections 4 and 5): every answer of the parse, the bits it
consumed, where it runs out of input, and the one pattern of each length. -/

namespace Sys2Proof.Machine

/-- Settles O12: the parse of each form of pattern, where it stands. -/
theorem decodeOfEncodedPattern : Obligations.DecodeOfEncodedPattern :=
  fun _ _ _ _ => decode_of_standsAt

/-! ## The three places where the input can end -/

/-- The parse at `pos` stops at `p` for want of input (R75, R76): among the leading zeros, in the suffix of a Mode0
regular tier, or in the suffix after twelve zeros. -/
def CutAt (tbl : Mode) (m : Memory) (pos p : Nat) : Prop :=
  (∃ z, z < 12 ∧ p = pos + z ∧ (z = 0 ∨ p ≤ 8 * m.size) ∧ 8 * m.size < p + 1 ∧
    bitsAt m pos z = List.replicate z false) ∨
  (tbl = .mode0 ∧ ∃ k, k < 12 ∧ p = pos + k + 1 ∧ p ≤ 8 * m.size ∧ 8 * m.size < p + (k + 1) ∧
    bitsAt m pos (k + 1) = List.replicate k false ++ [true]) ∨
  (p = pos + 12 ∧ p ≤ 8 * m.size ∧ 8 * m.size < p + 12 ∧ bitsAt m pos 12 = List.replicate 12 false)

/-- Fewer than 24 bits are left where the parse runs out of input. -/
theorem CutAt.short {tbl : Mode} {m : Memory} {pos p : Nat} (h : CutAt tbl m pos p) : 8 * m.size < pos + 24 := by
  rcases h with ⟨z, hz, _, _, hend, _⟩ | ⟨_, k, hk, _, _, hend, _⟩ | ⟨_, _, hend, _⟩ <;> omega

theorem decode_of_cutAt {tbl : Mode} {m : Memory} {pos p : Nat} (h : CutAt tbl m pos p) :
    decode tbl m pos = .endOfInput p := by
  rcases h with ⟨z, hz, rfl, hle, hend, hbits⟩ | ⟨rfl, k, hk, rfl, hle, hend, hbits⟩ | ⟨rfl, hle, hend, hbits⟩
  · have hcount : countZeros m Config.zMax 0 pos = .error (pos + z) := by
      rcases Nat.eq_zero_or_pos z with rfl | hpos
      · rw [countZeros_succ, if_pos (by omega), Nat.add_zero]
      · exact countZeros_cut hz (by omega) hbits
    simp [decode, hcount]
  · have hcount : countZeros m Config.zMax 0 pos = .ok (k, pos + k + 1) := by
      simpa using countZeros_terminated (z := 0) hk hle hbits
    simp [decode, hcount, hk, (takeBits_eq_none ..).mpr hend]
  · have hcount : countZeros m Config.zMax 0 pos = .ok (12, pos + 12) := by
      simpa using countZeros_zeros (z := 0) hle hbits
    simp [decode, hcount, (takeBits_eq_none m (pos + 12) Config.ovfW).mpr hend]

/-! ## Every answer of the parse -/

theorem oPattern_standsAt {m : Memory} {pos : Nat} (z : Fin 12) (hle : pos + z.val + 1 ≤ 8 * m.size)
    (hbits : bitsAt m pos (z.val + 1) = List.replicate z.val false ++ [true]) : standsAt (oPattern z) m pos := by
  have hlen : (encode (oPattern z)).length = z.val + 1 := by simp [encode_oPattern, oBits]
  rw [standsAt, hlen, hbits, encode_oPattern]
  exact ⟨by omega, rfl⟩

/-- The bits read as a suffix are the numeral of the value read. -/
theorem bin_natOfBits_bitsAt (m : Memory) (pos w : Nat) : bin w (natOfBits (bitsAt m pos w)) = bitsAt m pos w := by
  simpa using bin_natOfBits (bitsAt m pos w)

theorem natOfBits_bitsAt_lt (m : Memory) (pos w : Nat) : natOfBits (bitsAt m pos w) < 2 ^ w := by
  simpa using natOfBits_lt (bitsAt m pos w)

theorem zPattern_standsAt {m : Memory} {pos : Nat} (z : Fin 12)
    (hle : pos + z.val + 1 + (z.val + 1) ≤ 8 * m.size)
    (hbits : bitsAt m pos (z.val + 1) = List.replicate z.val false ++ [true]) :
    standsAt (zPattern z (natOfBits (bitsAt m (pos + z.val + 1) (z.val + 1)))) m pos := by
  have hencode := encode_zPattern z (natOfBits_bitsAt_lt m (pos + z.val + 1) (z.val + 1))
  have hlen := (congrArg List.length hencode).trans (Laws.zBits_length ..)
  have hsplit : 2 * z.val + 2 = (z.val + 1) + (z.val + 1) := by omega
  refine ⟨by omega, ?_⟩
  rw [hlen, hsplit, hencode, zBits, bitsAt_add, hbits, bin_natOfBits_bitsAt, List.append_assoc]
  rfl

theorem overflowPattern_standsAt {m : Memory} {pos : Nat} (tbl : Mode) (hle : pos + 12 + 12 ≤ 8 * m.size)
    (hbits : bitsAt m pos 12 = List.replicate 12 false) :
    standsAt (overflowPattern tbl (natOfBits (bitsAt m (pos + 12) 12))) m pos := by
  have hencode := encode_overflowPattern tbl (natOfBits_bitsAt_lt m (pos + 12) 12)
  have hlen := (congrArg List.length hencode).trans (Laws.overflowBits_length _)
  refine ⟨by omega, ?_⟩
  rw [hlen, hencode, overflowBits, bitsAt_add m pos 12 12, hbits, bin_natOfBits_bitsAt]

/-- Every twelve-zero pattern the parse can build is well formed and of its table (R67, R68). -/
theorem overflowPattern_wf_of_lt (tbl : Mode) {x : Nat} (hx : x < 2 ^ 12) :
    (overflowPattern tbl x).wf = true ∧ (overflowPattern tbl x).inTable tbl = true := by
  by_cases hle : x ≤ Config.ovfXmax
  · exact overflowPattern_wf tbl hle
  · have hsuffix : x = 0xFFD ∨ x = 0xFFE ∨ x = 0xFFF := by
      simp only [Config.ovfXmax] at hle
      omega
    rcases hsuffix with rfl | rfl | rfl <;> exact ⟨rfl, rfl⟩

/-- A well-formed pattern of the table stands in the buffer. -/
structure PatternAt (tbl : Mode) (m : Memory) (pos : Nat) (i : Instr) : Prop where
  wf : i.wf = true
  inTable : i.inTable tbl = true
  stands : standsAt i m pos

theorem PatternAt.decode_eq {tbl : Mode} {m : Memory} {pos : Nat} {i : Instr} (h : PatternAt tbl m pos i) :
    decode tbl m pos = .pattern i (pos + (encode i).length) := decode_of_standsAt h.wf h.inTable h.stands

/-- At every position either a pattern of the table stands whole or the input ends (R77). -/
theorem patternAt_or_cutAt (tbl : Mode) (m : Memory) (pos : Nat) :
    (∃ i, PatternAt tbl m pos i) ∨ ∃ p, CutAt tbl m pos p := by
  cases hcount : countZeros m Config.zMax 0 pos with
  | error p =>
    obtain ⟨hle, hlt, hend, hat, hbits⟩ := countZeros_eq_error hcount
    simp only [Config.zMax] at hlt
    exact .inr ⟨p, .inl ⟨p - pos, by omega, by omega, by omega, by omega, hbits⟩⟩
  | ok zp =>
    rcases countZeros_eq_ok hcount with ⟨k, hk, _, hq, hle, hbits⟩ | ⟨_, hq, hle, hbits⟩
    · cases tbl with
      | mode0 =>
        by_cases hfit : pos + k + 1 + (k + 1) ≤ 8 * m.size
        · obtain ⟨hwf, htbl⟩ := zPattern_wf ⟨k, hk⟩ (natOfBits (bitsAt m (pos + k + 1) (k + 1)))
          exact .inl ⟨_, hwf, htbl, zPattern_standsAt ⟨k, hk⟩ hfit hbits⟩
        · exact .inr ⟨_, .inr (.inl ⟨rfl, k, hk, rfl, by omega, by omega, hbits⟩)⟩
      | mode1 =>
        obtain ⟨hwf, htbl⟩ := oPattern_wf ⟨k, hk⟩
        exact .inl ⟨_, hwf, htbl, oPattern_standsAt ⟨k, hk⟩ (hq ▸ hle) hbits⟩
    · simp only [Config.zMax] at hq hle hbits
      by_cases hfit : pos + 12 + 12 ≤ 8 * m.size
      · obtain ⟨hwf, htbl⟩ := overflowPattern_wf_of_lt tbl (natOfBits_bitsAt_lt m (pos + 12) 12)
        exact .inl ⟨_, hwf, htbl, overflowPattern_standsAt tbl hfit hbits⟩
      · exact .inr ⟨_, .inr (.inr ⟨rfl, by omega, by omega, hbits⟩)⟩

theorem decode_eq_endOfInput {tbl : Mode} {m : Memory} {pos p : Nat} :
    decode tbl m pos = .endOfInput p ↔ CutAt tbl m pos p := by
  refine ⟨fun h => ?_, decode_of_cutAt⟩
  rcases patternAt_or_cutAt tbl m pos with ⟨i, hi⟩ | ⟨q, hq⟩
  · cases hi.decode_eq.symm.trans h
  · cases (decode_of_cutAt hq).symm.trans h
    exact hq

theorem decode_eq_pattern {tbl : Mode} {m : Memory} {pos p : Nat} {i : Instr} :
    decode tbl m pos = .pattern i p ↔ PatternAt tbl m pos i ∧ p = pos + (encode i).length := by
  refine ⟨fun h => ?_, fun ⟨hi, hp⟩ => hp ▸ hi.decode_eq⟩
  rcases patternAt_or_cutAt tbl m pos with ⟨j, hj⟩ | ⟨q, hq⟩
  · cases hj.decode_eq.symm.trans h
    exact ⟨hj, rfl⟩
  · cases (decode_of_cutAt hq).symm.trans h

/-- Two patterns of one table that stand at one position are the same. -/
theorem PatternAt.unique {tbl : Mode} {m : Memory} {pos : Nat} {i j : Instr} (hi : PatternAt tbl m pos i)
    (hj : PatternAt tbl m pos j) : i = j := by
  cases hi.decode_eq.symm.trans hj.decode_eq
  rfl

/-- Settles O13: what the parse answers stands there whole. -/
theorem decodedPatternStandsThere : Obligations.DecodedPatternStandsThere := by
  intro tbl i m pos p h
  obtain ⟨⟨hwf, htbl, hstands⟩, hp⟩ := decode_eq_pattern.mp h
  exact ⟨hwf, htbl, hstands, hp⟩

/-- Settles O14: a pattern stands whole, or the input ends at one of the three places. -/
theorem truncationExactlyWhereNoPatternFits : Obligations.TruncationExactlyWhereNoPatternFits := by
  refine fun tbl m pos => ⟨⟨?_, fun hnone => ?_⟩, fun p => decode_eq_endOfInput⟩
  · rintro ⟨p, hend⟩ ⟨i, hwf, htbl, hstands⟩
    cases hend.symm.trans (decode_of_standsAt hwf htbl hstands)
  · rcases patternAt_or_cutAt tbl m pos with ⟨i, hwf, htbl, hstands⟩ | ⟨p, hp⟩
    · exact absurd ⟨i, hwf, htbl, hstands⟩ hnone
    · exact ⟨p, decode_of_cutAt hp⟩

/-! ## The code -/

/-- A string packed into a buffer stands at its start, bit for bit. -/
theorem bitsAt_packBytes_take (bs : Bits) {n : Nat} (hn : n ≤ bs.length) :
    bitsAt (Memory.ofBytes (packBytes bs)) 0 n = bs.take n := by
  have hle : n ≤ 8 * (packBytes bs).length := by
    rw [packBytes_length]
    omega
  rw [← take_bitsAt hle, bitsAt_packBytes, List.take_append_of_le_length hn]

theorem standsAt_packBytes {i : Instr} {bs : Bits} (h : encode i <+: bs) :
    standsAt i (Memory.ofBytes (packBytes bs)) 0 := by
  have hle := h.length_le
  refine ⟨?_, ?_⟩
  · rw [Memory.size_ofBytes, packBytes_length]
    omega
  · rw [bitsAt_packBytes_take bs hle]
    exact (List.prefix_iff_eq_take.mp h).symm

/-- No two patterns of one table begin the same string. -/
theorem eq_of_encode_le {tbl : Mode} {i j : Instr} {bs : Bits} (hi : i.wf = true) (hj : j.wf = true)
    (hitbl : i.inTable tbl = true) (hjtbl : j.inTable tbl = true) (hibs : encode i <+: bs)
    (hjbs : encode j <+: bs) : i = j :=
  PatternAt.unique ⟨hi, hitbl, standsAt_packBytes hibs⟩ ⟨hj, hjtbl, standsAt_packBytes hjbs⟩

/-- Some pattern of the table begins any 24 bits: the parse of them does not run out of input (R77). -/
theorem exists_encode_le (tbl : Mode) {bs : Bits} (hlen : 24 ≤ bs.length) :
    ∃ i : Instr, i.wf = true ∧ i.inTable tbl = true ∧ encode i <+: bs := by
  rcases patternAt_or_cutAt tbl (Memory.ofBytes (packBytes bs)) 0 with ⟨i, hwf, htbl, _, hbits⟩ | ⟨p, hp⟩
  · have hle := (encode_length_le hwf htbl).trans hlen
    rw [bitsAt_packBytes_take bs hle] at hbits
    exact ⟨i, hwf, htbl, List.prefix_iff_eq_take.mpr hbits.symm⟩
  · have hshort := hp.short
    rw [Memory.size_ofBytes, packBytes_length] at hshort
    omega

/-- Settles O17: two patterns that begin one string are the two answers of one parse, and that parse has an answer. -/
theorem tablesAreCompletePrefixCodes : Obligations.TablesAreCompletePrefixCodes := by
  refine ⟨fun tbl i j hi hj hitbl hjtbl h => eq_of_encode_le hi hj hitbl hjtbl h (List.prefix_refl _),
    fun tbl bs hlen => ?_⟩
  obtain ⟨i, hwf, htbl, hle⟩ := exists_encode_le tbl hlen
  exact ⟨i, ⟨hwf, htbl, hle⟩, fun j ⟨hj, hjtbl, hjle⟩ => eq_of_encode_le hj hwf hjtbl htbl hjle hle⟩

theorem existsUnique_pattern_of_len {tbl : Mode} {n : Nat} (hpos : 1 ≤ n) (hn : n ≤ Config.maxLen tbl) :
    ∃! i : Instr, i.wf = true ∧ i.inTable tbl = true ∧ dataLen i = some n := by
  obtain ⟨i, hwf, htbl, hlen⟩ := exists_pattern_of_len hpos hn
  refine ⟨i, ⟨hwf, htbl, hlen⟩, fun j ⟨hj, hjtbl, hjlen⟩ => ?_⟩
  have hbits : encode j = encode i := Option.some.inj
    ((encodeLen_of_dataLen hj hjtbl hjlen).symm.trans (encodeLen_of_dataLen hwf htbl hlen))
  exact eq_of_encode_le hj hwf hjtbl htbl (List.prefix_refl _) (hbits ▸ List.prefix_refl _)

theorem dataLen_in_range {tbl : Mode} {n : Nat}
    (h : ∃ i : Instr, i.wf = true ∧ i.inTable tbl = true ∧ dataLen i = some n) :
    1 ≤ n ∧ n ≤ Config.maxLen tbl := by
  obtain ⟨i, hwf, htbl, hlen⟩ := h
  by_contra hout
  have hnone := (encodeLen_eq_none (tbl := tbl) (n := n)).mpr (by omega)
  cases hnone.symm.trans (encodeLen_of_dataLen hwf htbl hlen)

/-- Settles O18: a length has a pattern where `EncodeLen` is defined, and its bits determine the pattern; `MAX` is
12283 in Mode0 and 4105 in Mode1. -/
theorem everyLengthHasOnePattern : Obligations.EveryLengthHasOnePattern := by
  intro tbl n
  cases tbl with
  | mode0 => exact ⟨fun ⟨hpos, hn⟩ => existsUnique_pattern_of_len hpos hn, dataLen_in_range (tbl := .mode0)⟩
  | mode1 => exact ⟨fun ⟨hpos, hn⟩ => existsUnique_pattern_of_len hpos hn, dataLen_in_range (tbl := .mode1)⟩

/-- Settles O19: the parse evaluated on the bytes. -/
theorem writtenWordsDecode : Obligations.WrittenWordsDecode := by
  unfold Obligations.WrittenWordsDecode
  decide

end Sys2Proof.Machine
end

section
/-! PROOFS. The Bit Sequencer (`20_memory.md` section 2, `40_bit_sequencer.md`): bit order, the laws of writing and of
reading, and what is refused. -/

namespace Sys2Proof.Machine

/-! ## Bit and field order -/

theorem bitAt_ofBytes_toNat {bs : List Byte} {i : Nat} (h : i / 8 < bs.length) :
    (bitAt (Memory.ofBytes bs) i).toNat = (bs[i / 8].toNat >>> (7 - i % 8)) &&& 1 := by
  rw [bitAt, Memory.byte?_ofBytes, List.getElem?_eq_getElem h, Nat.and_one_is_mod, Nat.shiftRight_eq_div_pow,
    ← Nat.toNat_testBit, BitVec.testBit_toNat]

/-- A field is big-endian: its bit `j` counts `2 ^ (n - 1 - j)` (R15). -/
theorem memRead_eq_sum (m : Memory) (pos n : Nat) :
    memRead m pos n = ∑ j ∈ Finset.range n, (bitAt m (pos + j)).toNat * 2 ^ (n - 1 - j) := by
  induction n generalizing pos with
  | zero => rfl
  | succ n ih =>
    have hrest : natOfBits (bitsAt m (pos + 1) n) =
        ∑ j ∈ Finset.range n, (bitAt m (pos + (j + 1))).toNat * 2 ^ (n + 1 - 1 - (j + 1)) := by
      rw [← memRead, ih]
      refine Finset.sum_congr rfl fun j _ => ?_
      have haddr : pos + 1 + j = pos + (j + 1) := by omega
      have hweight : n - 1 - j = n + 1 - 1 - (j + 1) := by omega
      rw [haddr, hweight]
    rw [memRead, bitsAt, natOfBits_cons, bitsAt_length, hrest, Finset.sum_range_succ', Nat.add_comm]
    simp

/-- Settles O20: the bit order of a byte and the field order of a read. -/
theorem streamIsMostSignificantBitFirst : Obligations.StreamIsMostSignificantBitFirst :=
  ⟨fun _ _ => bitAt_ofBytes_toNat, memRead_eq_sum⟩

/-! ## Writing -/

/-- The numeral of a concatenated value is the concatenation of the numerals (R13, R87). -/
theorem bin_add {v₁ w₁ v₂ w₂ : Nat} (h₁ : v₁ < 2 ^ w₁) (h₂ : v₂ < 2 ^ w₂) :
    bin (w₁ + w₂) (v₁ * 2 ^ w₂ + v₂) = bin w₁ v₁ ++ bin w₂ v₂ := by
  have hvalue : natOfBits (bin w₁ v₁ ++ bin w₂ v₂) = v₁ * 2 ^ w₂ + v₂ := by
    rw [natOfBits_append, bin_length, natOfBits_bin, natOfBits_bin, Nat.mod_eq_of_lt h₁, Nat.mod_eq_of_lt h₂]
  simpa [hvalue] using bin_natOfBits (bin w₁ v₁ ++ bin w₂ v₂)

theorem writeBits_of_fin {v w : Nat} {b : Bsw} (hw : w ≤ 24) (hfin : b.fin = true) :
    writeBits v w b = .error .writeAfterFinish := by
  unfold writeBits
  rw [if_neg (by simpa using hw), if_pos hfin]

theorem writeBits_of_not_fin {v w : Nat} {b : Bsw} (hw : w ≤ 24) (hfin : b.fin = false) :
    writeBits v w b = .ok (putString (bin w v) b) :=
  writeBits_eq_ok.mpr ⟨hw, hfin, rfl⟩

/-- Settles O21: both sides shift in the same numeral, or both are refused. -/
theorem writesConcatenate : Obligations.WritesConcatenate := by
  intro b v₁ w₁ v₂ w₂ hw h₁ h₂
  cases hfin : b.fin with
  | true =>
    rw [writeBits_of_fin (by omega) hfin, writeBits_of_fin hw hfin]
    rfl
  | false =>
    rw [writeBits_of_not_fin (by omega) hfin, writeBits_of_not_fin hw hfin, bin_add h₁ h₂, putString_append]
    exact writeBits_of_not_fin (by omega) ((putString_fin ..).trans hfin)

/-- BSW before `finish_write` has emitted the whole bytes of `whole`, and `acc` holds the bits `part` (R25, R26). -/
structure Bsw.Holds (b : Bsw) (whole part : Bits) : Prop where
  whole_len : whole.length % 8 = 0
  part_len : part.length < 8
  out_eq : b.out = packBytes whole
  cnt_eq : b.cnt.toNat = part.length
  acc_eq : b.acc.toNat = natOfBits part
  fin_eq : b.fin = false

theorem Bsw.holds_reset : Bsw.reset.Holds [] [] := ⟨rfl, by decide, rfl, rfl, rfl, rfl⟩

/-- Packing goes on from a byte boundary. -/
theorem packBytes_append {whole : Bits} (h : whole.length % 8 = 0) (bs : Bits) :
    packBytes (whole ++ bs) = packBytes whole ++ packBytes bs := by
  obtain ⟨k, hk⟩ : ∃ k, whole.length = 8 * k := ⟨whole.length / 8, by omega⟩
  have hcount : (whole.length + bs.length + 7) / 8 = k + (bs.length + 7) / 8 := by omega
  have hfirst : (whole.length + 7) / 8 = k := by omega
  rw [packBytes, packBytes, packBytes, List.length_append, hcount, hfirst, List.range_add, List.map_append,
    List.map_map]
  congr 1
  · refine List.map_congr_left fun j hj => ?_
    have hj : 8 * j + 8 ≤ whole.length := by
      rw [List.mem_range] at hj
      omega
    rw [List.drop_append_of_le_length (by omega), List.take_append_of_le_length (by rw [List.length_drop]; omega)]
  · refine List.map_congr_left fun j _ => ?_
    have hdrop : 8 * (k + j) = whole.length + 8 * j := by omega
    rw [Function.comp_apply, hdrop, List.drop_length_add_append]

theorem packBytes_of_length {bs : Bits} (hpos : 0 < bs.length) (hle : bs.length ≤ 8) :
    packBytes bs = [byteOfBits bs] := by
  have hone : (bs.length + 7) / 8 = 1 := by omega
  simp [packBytes, hone, List.take_of_length_le hle]

theorem natOfBits_snoc (bs : Bits) (v : Bool) : natOfBits (bs ++ [v]) = 2 * natOfBits bs + v.toNat := by
  rw [natOfBits_append, natOfBits_cons]
  simp [Nat.mul_comm]

/-- Shifting a bit into an accumulator with room for it makes the number of the longer string (R86). -/
theorem shiftIn_toNat {acc : BitVec 8} {part : Bits} (hlen : part.length < 8) (hacc : acc.toNat = natOfBits part)
    (v : Bool) : (acc <<< 1 ||| (BitVec.ofBool v).setWidth 8).toNat = natOfBits (part ++ [v]) := by
  have hlt : natOfBits part < 2 ^ 7 :=
    (natOfBits_lt part).trans_le (Nat.pow_le_pow_right (by decide) (by omega))
  have hbit : v.toNat < 2 ^ 1 := Bool.toNat_lt v
  have hmod : natOfBits part <<< 1 % 2 ^ 8 = natOfBits part <<< 1 := by
    rw [Nat.shiftLeft_eq]
    omega
  have hvalue : ((BitVec.ofBool v).setWidth 8).toNat = v.toNat := by cases v <;> rfl
  rw [BitVec.toNat_or, BitVec.toNat_shiftLeft, hacc, hvalue, hmod, ← Nat.shiftLeft_add_eq_or_of_lt hbit,
    natOfBits_snoc, Nat.shiftLeft_eq]
  omega

/-- One more bit: the eighth of a byte emits it, another one stays in `acc` (R86). -/
theorem Bsw.Holds.putBit {b : Bsw} {whole part : Bits} (h : b.Holds whole part) (v : Bool) :
    ∃ whole' part', whole' ++ part' = whole ++ part ++ [v] ∧ (b.putBit v).Holds whole' part' := by
  obtain ⟨hwhole, hpart, hout, hcnt, hacc, hfin⟩ := h
  have hshift := shiftIn_toNat hpart hacc v
  unfold Bsw.putBit
  by_cases hfull : b.cnt = 7
  · have hseven : part.length = 7 := by rw [← hcnt, hfull]; rfl
    refine ⟨whole ++ (part ++ [v]), [], by simp, ?_⟩
    simp only [if_pos hfull]
    refine ⟨?_, by decide, ?_, rfl, rfl, hfin⟩
    · simp only [List.length_append, List.length_singleton]
      omega
    · have hlen : (part ++ [v]).length = 8 := by simp [hseven]
      rw [packBytes_append hwhole, packBytes_of_length (by omega) hlen.le, hout, byteOfBits, hlen, ← hshift,
        Nat.sub_self, pow_zero, mul_one, BitVec.ofNat_toNat, BitVec.setWidth_eq]
  · have hsix : part.length < 7 := by
      have hne : b.cnt.toNat ≠ 7 := fun h => hfull (BitVec.eq_of_toNat_eq h)
      omega
    refine ⟨whole, part ++ [v], by simp, ?_⟩
    simp only [if_neg hfull]
    refine ⟨hwhole, by simp; omega, hout, ?_, hshift, hfin⟩
    rw [BitVec.toNat_add, hcnt, List.length_append, List.length_singleton]
    exact Nat.mod_eq_of_lt (Nat.succ_lt_succ hsix)

/-- The bits written since reset are the bytes emitted and the bits held (R87). -/
theorem exists_holds_putString (bs : Bits) :
    ∃ whole part, whole ++ part = bs ∧ (putString bs Bsw.reset).Holds whole part := by
  induction bs using List.reverseRecOn with
  | nil => exact ⟨[], [], rfl, Bsw.holds_reset⟩
  | append_singleton bs v ih =>
    obtain ⟨whole, part, rfl, hholds⟩ := ih
    obtain ⟨whole', part', happend, hholds'⟩ := hholds.putBit v
    refine ⟨whole', part', happend, ?_⟩
    rw [putString_append]
    exact hholds'

/-- Writes of widths in range after each other shift in the concatenation of their numerals (R87). -/
theorem foldlM_writeBits {ws : List (Nat × Nat)} (hws : ∀ w ∈ ws, w.2 ≤ 24) {b : Bsw} (hfin : b.fin = false) :
    ws.foldlM (fun b w => writeBits w.1 w.2 b) b = Except.ok (putString (ws.flatMap fun w => bin w.2 w.1) b) := by
  induction ws generalizing b with
  | nil => rfl
  | cons w ws ih =>
    obtain ⟨hw, hws⟩ := List.forall_mem_cons.mp hws
    rw [List.foldlM_cons, writeBits_of_not_fin hw hfin, List.flatMap_cons, putString_append]
    exact ih hws ((putString_fin ..).trans hfin)

/-- Settles O22: the bytes emitted are the whole bytes of the string, the bits held are its rest. -/
theorem writesPackTheirBits : Obligations.WritesPackTheirBits := by
  intro ws hws
  refine ⟨_, foldlM_writeBits hws rfl, putString_fin .., ?_⟩
  generalize ws.flatMap (fun w => bin w.2 w.1) = bits
  obtain ⟨whole, part, rfl, hwhole, hpart, hout, hcnt, hacc, _⟩ := exists_holds_putString bits
  have hcut : 8 * ((whole ++ part).length / 8) = whole.length := by
    rw [List.length_append]
    omega
  simp only [hcut, List.take_left, List.drop_left]
  refine ⟨hout, ?_, hacc⟩
  rw [List.length_append]
  omega

/-- The padded byte of `finish_write` is the byte of the bits held (R88). -/
theorem shiftLeft_acc_eq {acc : BitVec 8} {part : Bits} (hacc : acc.toNat = natOfBits part) :
    acc <<< (8 - part.length) = byteOfBits part := by
  refine BitVec.eq_of_toNat_eq ?_
  rw [byteOfBits, BitVec.toNat_shiftLeft, hacc, Nat.shiftLeft_eq, BitVec.toNat_ofNat]

/-- Settles O23: `finish_write` emits the bits held, if any, as one byte padded with zeros. -/
theorem finishWritePadsWithZeros : Obligations.FinishWritePadsWithZeros := by
  intro bs
  obtain ⟨whole, part, rfl, hwhole, hpart, hout, hcnt, hacc, hfin⟩ := exists_holds_putString bs
  by_cases hempty : (putString (whole ++ part) Bsw.reset).cnt = 0
  · have hnil : part = [] := by simpa [hempty, eq_comm] using hcnt
    subst hnil
    refine ⟨_, finishWrite_eq_ok.mpr ⟨hfin, .inl ⟨hempty, rfl⟩⟩, ?_, ?_, ?_, hempty, rfl⟩
    · rw [hout, List.append_nil]
    · rw [hout, packBytes_length, List.append_nil]
    · exact BitVec.eq_of_toNat_eq hacc
  · have hpos : 0 < part.length := by
      refine Nat.pos_of_ne_zero fun h => hempty (BitVec.eq_of_toNat_eq ?_)
      rw [hcnt, h]
      rfl
    have hpack : packBytes (whole ++ part) = packBytes whole ++ [byteOfBits part] := by
      rw [packBytes_append hwhole, packBytes_of_length hpos hpart.le]
    refine ⟨_, finishWrite_eq_ok.mpr ⟨hfin, .inr ⟨hempty, rfl⟩⟩, ?_, ?_, rfl, rfl, rfl⟩
    · rw [hpack, ← hout, hcnt, shiftLeft_acc_eq hacc]
    · rw [← packBytes_length, hpack, hout]
      simp

/-! ## Reading -/

theorem readBits_eq_bits {w v : Nat} {r r' : Bsr} :
    readBits w r = .ok (.bits v r') ↔ w ≤ 24 ∧ r.rPos + w ≤ 8 * r.mem.size ∧ v = memRead r.mem r.rPos w ∧
      r' = { r with rPos := r.rPos + w } := by
  rw [readBits_eq_ok]
  simp

theorem readBits_eq_endOfInput {w : Nat} {r r' : Bsr} :
    readBits w r = .ok (.endOfInput r') ↔ w ≤ 24 ∧ 8 * r.mem.size < r.rPos + w ∧ r' = r := by
  rw [readBits_eq_ok]
  simp

/-- A field is its first part and its second part, one after the other (R49). -/
theorem memRead_add (m : Memory) (pos w₁ w₂ : Nat) :
    memRead m pos (w₁ + w₂) = memRead m pos w₁ * 2 ^ w₂ + memRead m (pos + w₁) w₂ := by
  rw [memRead, bitsAt_add, natOfBits_append, bitsAt_length, memRead, memRead]

/-- Settles O24: the value read by one read is that of its two parts. -/
theorem readsConcatenate : Obligations.ReadsConcatenate := by
  intro r r₁ r₂ w₁ w₂ a b hw h₁ h₂
  obtain ⟨_, _, rfl, rfl⟩ := readBits_eq_bits.mp h₁
  obtain ⟨_, hle, rfl, rfl⟩ := readBits_eq_bits.mp h₂
  refine ⟨readBits_eq_bits.mpr ⟨hw, ?_, (memRead_add ..).symm, ?_⟩, natOfBits_bitsAt_lt .., rfl⟩
  · rw [← Nat.add_assoc]
    exact hle
  · rw [← Nat.add_assoc]

/-- Settles O25: the two answers of a read of a width in range. -/
theorem endOfInputConsumesNothing : Obligations.EndOfInputConsumesNothing := by
  intro w r hw
  refine ⟨?_, fun r' h => ?_, fun hle => readBits_eq_bits.mpr ⟨hw, hle, rfl, rfl⟩⟩
  · rw [readBits_eq_endOfInput]
    exact ⟨fun ⟨_, hend, _⟩ => hend, fun hend => ⟨hw, hend, rfl⟩⟩
  · obtain ⟨_, _, hsame⟩ := readBits_eq_endOfInput.mp h
    exact hsame

theorem memRead_one (m : Memory) (pos : Nat) : memRead m pos 1 = (bitAt m pos).toNat := by
  simp [memRead, bitsAt, natOfBits_cons]

/-- Settles O26: a read of width 1 reads the bit that `peek_bit` shows. -/
theorem peekAgreesWithRead : Obligations.PeekAgreesWithRead := by
  intro r
  unfold peekBit peekBitAt
  by_cases hend : 8 * r.mem.size ≤ r.rPos
  · rw [if_pos hend]
    refine ⟨by simp [hend], fun b => ?_⟩
    rw [readBits_eq_bits]
    simp only [reduceCtorEq, false_iff, not_and]
    omega
  · rw [if_neg hend]
    refine ⟨by simp [hend], fun b => ?_⟩
    rw [readBits_eq_bits, memRead_one, Option.some.injEq]
    constructor
    · rintro rfl
      exact ⟨by decide, by omega, rfl, rfl⟩
    · rintro ⟨_, _, hbit, _⟩
      cases b <;> cases h : bitAt r.mem r.rPos <;> simp [h] at hbit ⊢

/-- Settles O27: the two refusals, by the width first and then by `fin`. -/
theorem sequencerMisuseRefused : Obligations.SequencerMisuseRefused := by
  refine ⟨fun v w b hw => if_pos hw, fun w r hw => if_pos hw, fun v w b => writeBits_of_fin, fun b hfin => ?_⟩
  unfold finishWrite
  exact if_pos hfin

end Sys2Proof.Machine
end

section
/-! PROOFS. The step of the machine: what each entry of the caller's script does, what a turn of DEC does, and that the
two units share nothing (`10_state.md` section 1, `45_run_decoder.md` sections 1 and 6). -/

namespace Sys2Proof.Machine

/-! ## Starts, reset, and the caller's buffer -/

/-- Settles O31: `dec_start` outside RUN, and its refusal. -/
theorem decStartBeginsAFreshCall : Obligations.DecStartBeginsAFreshCall := by
  intro s buf strict rest hin
  rw [step_input hin]
  exact ⟨fun hstatus => if_neg hstatus, fun hrun => if_pos hrun⟩

theorem encToken_outside_run {s : State} (h : s.enc.phase ≠ .run) (t : Token) :
    encToken t s = .refused .tokenOutsideRun := by
  unfold encToken encStep
  rw [if_neg h]

/-- Settles O32: `enc_start` outside RUN, its refusal, and the refusal of a token outside RUN. -/
theorem encStartBeginsAFreshCall : Obligations.EncStartBeginsAFreshCall := by
  refine ⟨fun s rest hin => ⟨step_encStart hin, fun hrun => ?_⟩, fun s t rest hin hphase => ?_⟩
  · rw [step_input hin]
    exact if_pos hrun
  · rw [step_input hin]
    exact encToken_outside_run (s := s.withInputs rest) hphase t

/-- Settles O33: the reset state is the table of R45. -/
theorem hardwareResetSetsEveryRegister : Obligations.HardwareResetSetsEveryRegister := by
  intro s rest hin
  rw [step_input hin]
  exact ⟨rfl, rfl⟩

/-- Settles O55: a change of the buffer is refused in a call and acts on no unit outside one. -/
theorem bufferChangeHasNoMeaningInACall : Obligations.BufferChangeHasNoMeaningInACall := by
  intro s buf rest hin
  rw [step_input hin]
  exact ⟨fun hrun => if_pos hrun, fun hstatus => if_neg hstatus⟩

/-- Settles O54: the codes of R187. -/
theorem statusCodes : Obligations.StatusCodes := by
  unfold Obligations.StatusCodes
  decide

/-! ## A turn of DEC -/

/-- DEC moves: the script is empty, or gives it a turn; `rest` is the script after the step. -/
def DecMoves (s : State) (rest : List Input) : Prop :=
  (s.inputs = [] ∧ rest = []) ∨ s.inputs = .decTurn :: rest

theorem step_decMoves {s : State} {rest : List Input} (h : DecMoves s rest) :
    step s = decTurn (s.withInputs rest) := by
  rcases h with ⟨hin, rfl⟩ | hin
  · rw [step_empty hin, ← hin, State.withInputs_self]
  · rw [step_input hin]
    rfl

theorem decMoves_empty {s : State} (h : s.inputs = []) : DecMoves s [] := .inl ⟨h, rfl⟩

theorem step_decMoves_run {s : State} {rest : List Input} (h : DecMoves s rest) (hrun : s.dec.status = .run) :
    step s = .next ((s.withInputs rest).withDec s.dec.next) := by
  rw [step_decMoves h]
  exact decTurn_eq_next.mpr ⟨hrun, rfl⟩

theorem Dec.next_of_pattern {d : Dec} {i : Instr} {p : Nat}
    (h : decode (tableOf d) d.bsr.mem d.bsr.rPos = .pattern i p) : d.next = (d.seek p).exec i := by
  rw [Dec.next, h]

theorem Dec.next_of_endOfInput {d : Dec} {p : Nat}
    (h : decode (tableOf d) d.bsr.mem d.bsr.rPos = .endOfInput p) :
    d.next = (d.seek p).finish .truncated d.padNz := by
  rw [Dec.next, h]

/-- Settles O28: a turn of DEC executes the pattern at the position after it, by either way DEC moves. -/
theorem stepRunsDecodedInstruction : Obligations.StepRunsDecodedInstruction := by
  intro s i p hrun hdecode
  have turn {rest : List Input} (h : DecMoves s rest) :
      step s = exec i ((s.withInputs rest).seek p) := by
    rw [step_decMoves_run h hrun, Dec.next_of_pattern hdecode, exec_eq]
    rfl
  refine ⟨fun hin => ?_, fun rest hin => turn (.inr hin)⟩
  rw [turn (decMoves_empty hin), ← hin]
  rfl

/-- Settles O29: a turn of DEC that runs out of input takes the trap, by either way DEC moves. -/
theorem truncationTakesTheTrap : Obligations.TruncationTakesTheTrap := by
  intro s p hrun hdecode
  have turn {rest : List Input} (h : DecMoves s rest) :
      step s = .next ((s.withInputs rest).withDec ((s.dec.seek p).finish .truncated s.dec.padNz)) := by
    rw [step_decMoves_run h hrun, Dec.next_of_endOfInput hdecode]
  refine ⟨fun hin => ?_, fun rest hin => turn (.inr hin)⟩
  rw [turn (decMoves_empty hin), ← hin]
  rfl

/-- Settles O30: outside RUN a turn of DEC is the fault. -/
theorem noStepOutsideRun : Obligations.NoStepOutsideRun := by
  intro s hstatus
  have turn {rest : List Input} (h : DecMoves s rest) : step s = .fault .noStep := by
    rw [step_decMoves h]
    exact if_neg hstatus
  exact ⟨fun hin => turn (decMoves_empty hin), fun rest hin => turn (.inr hin)⟩

/-! ## How a step ends a call -/

/-- The three ends of `TERM` by the padding check and the flag (R173). -/
theorem Dec.terminated_status (d : Dec) :
    (d.terminated.status = .ok ∧ d.terminated.padNz = false) ∨
    (d.terminated.status = .ok ∧ d.terminated.padNz = true ∧ d.strict = false) ∨
    (d.terminated.status = .padding ∧ d.terminated.padNz = true ∧ d.strict = true) := by
  unfold Dec.terminated
  cases finishRead d.bsr <;> cases hstrict : d.strict <;> simp

/-- The three ways a step of DEC ends: truncated, by `TERM`, or still in the status it had (R164). -/
theorem Dec.next_status (d : Dec) :
    (∃ p, decode (tableOf d) d.bsr.mem d.bsr.rPos = .endOfInput p ∧ d.next.status = .truncated ∧
      d.next.padNz = d.padNz) ∨
    (∃ p, decode (tableOf d) d.bsr.mem d.bsr.rPos = .pattern .term p ∧ d.next = (d.seek p).terminated) ∨
    (∃ i p, decode (tableOf d) d.bsr.mem d.bsr.rPos = .pattern i p ∧ i ≠ .term ∧ d.next.status = d.status ∧
      d.next.padNz = d.padNz) := by
  rcases d.next_cases with ⟨i, p, hdecode, h⟩ | ⟨p, hdecode, h⟩
  · by_cases hi : i = .term
    · subst hi
      exact .inr (.inl ⟨p, hdecode, h⟩)
    · obtain ⟨hstatus, hpad⟩ := (d.seek p).exec_of_ne_term hi
      exact .inr (.inr ⟨i, p, hdecode, hi, h ▸ hstatus, h ▸ hpad⟩)
  · exact .inl ⟨p, hdecode, by rw [h]; rfl, by rw [h]; rfl⟩

theorem exists_decMoves {s : State} (h : s.inputs = [] ∨ s.inputs.head? = some .decTurn) : ∃ rest, DecMoves s rest := by
  rcases h with hin | hhead
  · exact ⟨[], decMoves_empty hin⟩
  · obtain ⟨rest, hin⟩ := List.head?_eq_some_iff.mp hhead
    exact ⟨rest, .inr hin⟩

/-- Settles O39: each way a step of DEC ends fixes the parse, and the parse has one answer. -/
theorem howADecodeCallEnds : Obligations.HowADecodeCallEnds := by
  intro s hmoves hrun
  obtain ⟨rest, hmoves⟩ := exists_decMoves hmoves
  refine ⟨_, step_decMoves_run hmoves hrun, ?_⟩
  rcases s.dec.next_status with ⟨p, hdecode, hstatus, _⟩ | ⟨p, hdecode, h⟩ | ⟨i, p, hdecode, hi, hstatus, _⟩
  · simp [hdecode, hstatus]
  · rcases (s.dec.seek p).terminated_status with ⟨hstatus, _⟩ | ⟨hstatus, _⟩ | ⟨hstatus, hpad, hstrict⟩
    · simp [hdecode, h, hstatus]
    · simp [hdecode, h, hstatus]
    · simpa [hdecode, h, hstatus, hpad] using hstrict
  · simp [hdecode, hstatus, hrun, hi]

/-! ## The two units -/

/-- `ENC` takes `enc_start` or a token: `e'` is ENC afterwards (R142, R207). -/
def Enc.Takes (a : Input) (e e' : Enc) : Prop :=
  match a with
  | .encStart => e.phase ≠ .run ∧ e' = Enc.started
  | .token t => encStep t e = .ok e'
  | _ => False

/-- An input for ENC. -/
def Input.isEnc (a : Input) : Prop := a = .encStart ∨ ∃ t, a = .token t

/-- An input for ENC acts on ENC alone and is answered by ENC alone (R22). -/
theorem takeInput_enc {a : Input} (ha : a.isEnc) {s t : State} :
    takeInput a s = .next t ↔ ∃ e, s.enc.Takes a e ∧ t = s.withEnc e := by
  rcases ha with rfl | ⟨k, rfl⟩
  · constructor
    · intro h
      obtain ⟨hphase, rfl⟩ := encStart_next h
      exact ⟨_, ⟨hphase, rfl⟩, rfl⟩
    · rintro ⟨_, ⟨hphase, rfl⟩, rfl⟩
      exact if_neg hphase
  · constructor
    · exact encToken_next
    · rintro ⟨e, he, rfl⟩
      have he : encStep k s.enc = .ok e := he
      rw [takeInput, encToken, he]

theorem run_succ_eq_next {k : Nat} {s u : State} :
    Host.Core.run Sys2Proof.core (k + 1) s = .next u ↔
      ∃ t, step s = .next t ∧ Host.Core.run Sys2Proof.core k t = .next u := by
  have hcore : Sys2Proof.core.step = step := rfl
  simp only [Host.Core.run, hcore]
  cases step s <;> simp

theorem run_two {s u : State} :
    Host.Core.run Sys2Proof.core 2 s = .next u ↔ ∃ t, step s = .next t ∧ step t = .next u := by
  have hzero (t : State) : Host.Core.run Sys2Proof.core 0 t = .next u ↔ t = u :=
    ⟨Host.Outcome.next.inj, congrArg _⟩
  simp only [run_succ_eq_next, hzero, exists_eq_right]

/-- Settles O36: in either order the two steps are taken exactly when ENC takes its input and DEC is in RUN, and their
effects are on different registers. -/
theorem unitsCommute : Obligations.UnitsCommute := by
  intro s u a rest ha
  have encThenDec : Host.Core.run Sys2Proof.core 2 (s.withInputs (a :: .decTurn :: rest)) = .next u ↔
      ∃ e, s.enc.Takes a e ∧ s.dec.status = .run ∧ u = ((s.withInputs rest).withEnc e).withDec s.dec.next := by
    rw [run_two, step_input rfl]
    simp only [takeInput_enc ha]
    constructor
    · rintro ⟨_, ⟨e, he, rfl⟩, hturn⟩
      exact ⟨e, he, decTurn_eq_next.mp hturn⟩
    · rintro ⟨e, he, hturn⟩
      exact ⟨_, ⟨e, he, rfl⟩, decTurn_eq_next.mpr hturn⟩
  have decThenEnc : Host.Core.run Sys2Proof.core 2 (s.withInputs (.decTurn :: a :: rest)) = .next u ↔
      ∃ e, s.enc.Takes a e ∧ s.dec.status = .run ∧ u = ((s.withInputs rest).withEnc e).withDec s.dec.next := by
    rw [run_two, step_input rfl]
    constructor
    · rintro ⟨_, hturn, htake⟩
      obtain ⟨hrun, rfl⟩ := decTurn_eq_next.mp hturn
      obtain ⟨e, he, rfl⟩ := (takeInput_enc ha).mp htake
      exact ⟨e, he, hrun, rfl⟩
    · rintro ⟨e, he, hrun, rfl⟩
      exact ⟨_, decTurn_eq_next.mpr ⟨hrun, rfl⟩, (takeInput_enc ha).mpr ⟨e, he, rfl⟩⟩
  rw [encThenDec, decThenEnc]

/-- Everything a step can do, by the head of the script: one unit changes, or both at a reset, or none. -/
theorem step_next_cases {s t : State} (h : step s = .next t) :
    (∃ rest, DecMoves s rest ∧ s.dec.status = .run ∧ t = (s.withInputs rest).withDec s.dec.next) ∨
    (∃ a rest e, s.inputs = a :: rest ∧ a.isEnc ∧ s.enc.Takes a e ∧ t = (s.withInputs rest).withEnc e) ∨
    (∃ buf strict rest, s.inputs = .decStart buf strict :: rest ∧
      t = (s.withInputs rest).withDec (Dec.started buf strict)) ∨
    (∃ buf rest, s.inputs = .changeBuffer buf :: rest ∧ t = s.withInputs rest) ∨
    (∃ rest, s.inputs = .reset :: rest ∧ t = State.reset.withInputs rest) := by
  have turn {rest : List Input} (hmoves : DecMoves s rest) :
      s.dec.status = .run ∧ t = (s.withInputs rest).withDec s.dec.next :=
    decTurn_eq_next.mp ((step_decMoves hmoves).symm.trans h)
  cases hin : s.inputs with
  | nil => exact .inl ⟨[], decMoves_empty hin, turn (decMoves_empty hin)⟩
  | cons a rest =>
    have enc (ha : a.isEnc) : ∃ e, s.enc.Takes a e ∧ t = (s.withInputs rest).withEnc e :=
      (takeInput_enc ha).mp ((step_input hin).symm.trans h)
    have htake : takeInput a (s.withInputs rest) = .next t := (step_input hin).symm.trans h
    cases a with
    | decTurn => exact .inl ⟨rest, .inr hin, turn (.inr hin)⟩
    | encStart =>
      obtain ⟨e, he, ht⟩ := enc (.inl rfl)
      exact .inr (.inl ⟨_, rest, e, rfl, .inl rfl, he, ht⟩)
    | token k =>
      obtain ⟨e, he, ht⟩ := enc (.inr ⟨k, rfl⟩)
      exact .inr (.inl ⟨_, rest, e, rfl, .inr ⟨k, rfl⟩, he, ht⟩)
    | decStart buf strict =>
      obtain ⟨_, ht⟩ := decStart_next htake
      exact .inr (.inr (.inl ⟨buf, strict, rest, rfl, ht⟩))
    | changeBuffer buf =>
      obtain ⟨_, ht⟩ := changeBuffer_next htake
      exact .inr (.inr (.inr (.inl ⟨buf, rest, rfl, ht⟩)))
    | reset => exact .inr (.inr (.inr (.inr ⟨rest, rfl, (Host.Outcome.next.inj htake).symm⟩)))

/-- Settles O37: the cases of a step, each with the unit it changes. -/
theorem stepTouchesOnlyItsUnit : Obligations.StepTouchesOnlyItsUnit := by
  intro s t h
  rcases step_next_cases h with ⟨rest, ⟨hin, rfl⟩ | hin, _, rfl⟩ | ⟨a, rest, e, hin, rfl | ⟨k, rfl⟩, _, rfl⟩ |
    ⟨buf, strict, rest, hin, rfl⟩ | ⟨buf, rest, hin, rfl⟩ | ⟨rest, hin, rfl⟩ <;> rw [hin]
  · exact ⟨rfl, rfl⟩
  · exact ⟨rfl, rfl⟩
  · exact ⟨rfl, rfl⟩
  · exact ⟨rfl, rfl⟩
  · exact ⟨rfl, rfl⟩
  · exact ⟨rfl, rfl, rfl⟩
  · exact ⟨rfl, rfl, rfl⟩

/-! ## Outputs -/

theorem emit_eq_ok_putString {p : Bits} {b b' : Bsw} (h : emit p b = .ok b') : b' = putString p b := by
  obtain ⟨_, _, hb⟩ := emit_eq_ok.mp h
  exact hb

/-- If `Emit(EncodeLen(m, n))` answers, the bits of the length were written (R81, R87). -/
theorem emitLen_eq_ok_putString {m : Mode} {n : Nat} {b b' : Bsw} (h : emitLen m n b = .ok b') :
    b' = putString ((encodeLen m n).getD []) b := by
  obtain ⟨p, hp, hemit⟩ := emitLen_eq_ok.mp h
  rw [hp, Option.getD_some]
  exact emit_eq_ok_putString hemit

theorem emitSymbol_eq_ok_putString {y : Symbol} {b b' : Bsw} (h : emitSymbol y b = .ok b') :
    b' = putString (symbolBits y) b := by
  cases y with
  | ordinary m n => exact emitLen_eq_ok_putString h
  | continuation m n =>
    obtain ⟨c, hmarker, hvalue⟩ := emitSymbol_continuation.mp h
    have hc := emit_eq_ok_putString hmarker
    rw [symbolBits, putString_append, ← hc]
    exact emitLen_eq_ok_putString hvalue
  | modeChange => exact emit_eq_ok_putString h
  | termination => exact emit_eq_ok_putString h

theorem emitSymbols_eq_ok_putString {ys : List Symbol} {b b' : Bsw} (h : emitSymbols ys b = .ok b') :
    b' = putString (ys.flatMap symbolBits) b := by
  induction ys generalizing b with
  | nil => exact (Except.ok.inj h).symm
  | cons y ys ih =>
    obtain ⟨c, hy, hys⟩ := emitSymbols_cons.mp h
    obtain rfl := emitSymbol_eq_ok_putString hy
    rw [List.flatMap_cons, putString_append]
    exact ih hys

/-- If `EmitRun` answers, the bits of its symbols were written, and the mode is that of the next run (R145 to R148). -/
theorem emitRun_eq_ok_putString {v : Bool} {n : Nat} {e e' : Enc} (h : emitRun v n e = .ok e') :
    e' = { e with
      bsw := putString ((emitRunSymbols e.mode v n).flatMap symbolBits) e.bsw
      mode := (Mode.ofBit v).other } := by
  obtain ⟨b, hb, rfl⟩ := emitRun_eq_ok.mp h
  rw [emitSymbols_eq_ok_putString hb]

/-- If `Finalize` answers, the termination was written and then the padding (R150). -/
theorem finalize_eq_ok_putString {e e' : Enc} (h : finalize e = .ok e') :
    ∃ b, finishWrite (putString (encode .term) e.bsw) = .ok b ∧ e' = { e with bsw := b, phase := .done } := by
  obtain ⟨b, b', hterm, hfinish, rfl⟩ := finalize_eq_ok.mp h
  have hb := emit_eq_ok_putString hterm
  exact ⟨b', hb ▸ hfinish, rfl⟩

theorem finishWrite_out {b b' : Bsw} (h : finishWrite b = .ok b') : b.out <+: b'.out := by
  rcases finishWrite_eq_ok.mp h with ⟨_, ⟨_, rfl⟩ | ⟨_, rfl⟩⟩
  · exact List.prefix_refl _
  · exact List.prefix_append _ _

theorem finalize_out {e e' : Enc} (h : finalize e = .ok e') : e.bsw.out <+: e'.bsw.out := by
  obtain ⟨b, hfinish, rfl⟩ := finalize_eq_ok_putString h
  exact (putString_out _ _).trans (finishWrite_out hfinish)

/-- A token withdraws no byte (R38). -/
theorem encStep_out {t : Token} {e e' : Enc} (h : encStep t e = .ok e') : e.bsw.out <+: e'.bsw.out := by
  have hrun {f : Enc} (hf : emitRun e.val e.len e = .ok f) : e.bsw.out <+: f.bsw.out := by
    obtain rfl := emitRun_eq_ok_putString hf
    exact putString_out _ _
  obtain ⟨_, h⟩ := encStep_eq_ok h
  cases t with
  | bit b =>
    rcases h with ⟨_, rfl⟩ | ⟨_, _, rfl⟩ | ⟨_, _, f, hf, rfl⟩
    · exact List.prefix_refl _
    · exact List.prefix_refl _
    · exact hrun (f := f) hf
  | endToken =>
    rcases h with ⟨_, f, hf, hend⟩ | ⟨_, hend⟩
    · exact (hrun (f := f) hf).trans (finalize_out (e := { f with haveRun := false }) hend)
    · exact finalize_out hend

/-- Settles O38: DEC's step and ENC's tokens only append; the starts and the reset, which clear, are left out. -/
theorem outputsOnlyGrow : Obligations.OutputsOnlyGrow := by
  intro s t h hreset
  rcases step_next_cases h with ⟨rest, _, _, rfl⟩ | ⟨a, rest, e, hin, rfl | ⟨k, rfl⟩, he, rfl⟩ |
    ⟨buf, strict, rest, hin, rfl⟩ | ⟨buf, rest, hin, rfl⟩ | ⟨rest, hin, rfl⟩
  · exact ⟨fun _ => List.prefix_refl _, fun _ => ⟨s.dec.out_le_next, s.dec.next_buf, s.dec.next_rPos.1⟩⟩
  · exact ⟨fun hne => absurd (by rw [hin]; rfl) hne, fun _ => ⟨List.prefix_refl _, rfl, le_rfl⟩⟩
  · exact ⟨fun _ => encStep_out he, fun _ => ⟨List.prefix_refl _, rfl, le_rfl⟩⟩
  · exact ⟨fun _ => List.prefix_refl _, fun hne => absurd (by rw [hin]; rfl) (hne buf strict)⟩
  · exact ⟨fun _ => List.prefix_refl _, fun _ => ⟨List.prefix_refl _, rfl, le_rfl⟩⟩
  · exact absurd (by rw [hin]; rfl) hreset

end Sys2Proof.Machine
end

section
/-! PROOFS. The invariant of the machine (`Safety.lean`): every operation of either unit keeps that unit's part. -/

namespace Sys2Proof.Machine

/-! ## The write sequencer -/

theorem Bsw.wf_reset : Bsw.reset.Wf := ⟨by decide⟩

/-- A bit shifted into an accumulator that holds `cnt` bits makes one that holds `cnt + 1` (R86). -/
theorem shiftIn_toNat_lt {acc : BitVec 8} {n : Nat} (hn : n < 7) (hacc : acc.toNat < 2 ^ n) (v : Bool) :
    (acc <<< 1 ||| (BitVec.ofBool v).setWidth 8).toNat < 2 ^ (n + 1) := by
  have hshift : (acc <<< 1).toNat < 2 ^ (n + 1) := by
    rw [BitVec.toNat_shiftLeft, Nat.shiftLeft_eq, pow_succ]
    exact (Nat.mod_le _ _).trans_lt (by omega)
  have hbit : ((BitVec.ofBool v).setWidth 8).toNat < 2 ^ (n + 1) := by
    have hone : ((BitVec.ofBool v).setWidth 8).toNat < 2 := by cases v <;> decide
    exact hone.trans_le (Nat.le_self_pow (by omega) 2)
  rw [BitVec.toNat_or]
  exact Nat.or_lt_two_pow hshift hbit

theorem Bsw.Wf.putBit {b : Bsw} (h : b.Wf) (v : Bool) : (b.putBit v).Wf := by
  unfold Bsw.putBit
  by_cases hfull : b.cnt = 7
  · simp only [if_pos hfull]
    exact ⟨Bsw.wf_reset.acc_lt⟩
  · have hcnt : b.cnt.toNat < 7 := by
      have hne : b.cnt.toNat ≠ 7 := fun h => hfull (BitVec.eq_of_toNat_eq h)
      omega
    have hsucc : (b.cnt + 1).toNat = b.cnt.toNat + 1 := by
      rw [BitVec.toNat_add]
      exact Nat.mod_eq_of_lt (Nat.succ_lt_succ hcnt)
    simp only [if_neg hfull]
    refine ⟨?_⟩
    rw [hsucc]
    exact shiftIn_toNat_lt hcnt h.acc_lt v

theorem Bsw.Wf.putString {b : Bsw} (h : b.Wf) (bs : Bits) : (putString bs b).Wf := by
  induction bs generalizing b with
  | nil => exact h
  | cons v bs ih => exact ih (h.putBit v)

/-- `finish_write` leaves a finished sequencer with no bits pending (R88). -/
theorem Bsw.Wf.finishWrite {b b' : Bsw} (h : b.Wf) (hfinish : finishWrite b = .ok b') :
    b'.Wf ∧ b'.fin = true ∧ b'.cnt = 0 := by
  rcases finishWrite_eq_ok.mp hfinish with ⟨_, ⟨hcnt, rfl⟩ | ⟨_, rfl⟩⟩
  · exact ⟨⟨h.acc_lt⟩, rfl, hcnt⟩
  · exact ⟨⟨Bsw.wf_reset.acc_lt⟩, rfl, rfl⟩

/-! ## ENC -/

theorem Enc.wf_reset : Enc.reset.Wf := ⟨Bsw.wf_reset, by decide, by decide, by decide, fun _ => rfl⟩
theorem Enc.wf_started : Enc.started.Wf := ⟨Bsw.wf_reset, by decide, by decide, by decide, by decide⟩

/-- In RUN the invariant is that of the write sequencer, which is not finished, and of the pending run. -/
theorem Enc.wf_of_run {e : Enc} (hphase : e.phase = .run) (hbsw : e.bsw.Wf) (hfin : e.bsw.fin = false)
    (hlen : e.haveRun = true → 1 ≤ e.len) : e.Wf :=
  ⟨hbsw, by simp [hphase, hfin], by simp [hphase], hlen, by simp [hphase]⟩

theorem Enc.Wf.fin_of_run {e : Enc} (h : e.Wf) (hphase : e.phase = .run) : e.bsw.fin = false := by
  simpa [hphase] using h.fin_iff

theorem Enc.Wf.finalize {e e' : Enc} (hbsw : e.bsw.Wf) (hlen : e.haveRun = true → 1 ≤ e.len)
    (h : finalize e = .ok e') : e'.Wf := by
  obtain ⟨b, hfinish, rfl⟩ := finalize_eq_ok_putString h
  obtain ⟨hb, hfin, hcnt⟩ := (hbsw.putString _).finishWrite hfinish
  exact ⟨hb, by simp [hfin], fun _ => hcnt, hlen, nofun⟩

/-- Every token that ENC takes keeps its invariant (R143, R144). -/
theorem Enc.Wf.encStep {t : Token} {e e' : Enc} (h : e.Wf) (hstep : encStep t e = .ok e') : e'.Wf := by
  obtain ⟨hphase, hstep⟩ := encStep_eq_ok hstep
  have hfin := h.fin_of_run hphase
  cases t with
  | bit b =>
    rcases hstep with ⟨_, rfl⟩ | ⟨_, _, rfl⟩ | ⟨_, _, f, hf, rfl⟩
    · exact Enc.wf_of_run hphase h.bsw hfin fun _ => le_rfl
    · exact Enc.wf_of_run hphase h.bsw hfin fun _ => Nat.le_add_left ..
    · obtain rfl := emitRun_eq_ok_putString hf
      exact Enc.wf_of_run hphase (h.bsw.putString _) ((putString_fin ..).trans hfin) fun _ => le_rfl
  | endToken =>
    rcases hstep with ⟨_, f, hf, hend⟩ | ⟨_, hend⟩
    · obtain rfl := emitRun_eq_ok_putString hf
      exact Enc.Wf.finalize (h.bsw.putString _) (by simp) hend
    · exact Enc.Wf.finalize h.bsw h.len_pos hend

theorem Enc.Wf.takes {a : Input} {e e' : Enc} (ha : a.isEnc) (h : e.Wf) (htakes : e.Takes a e') : e'.Wf := by
  rcases ha with rfl | ⟨t, rfl⟩
  · obtain ⟨_, rfl⟩ := htakes
    exact Enc.wf_started
  · exact h.encStep htakes

/-! ## DEC -/

theorem Dec.wf_reset : Dec.reset.Wf :=
  ⟨rfl, le_rfl, by decide, by decide, by decide, by decide, fun _ => rfl⟩

theorem Dec.wf_started (buf : List Byte) (strict : Bool) : (Dec.started buf strict).Wf :=
  ⟨Memory.wf_ofBytes buf, Nat.zero_le _, fun _ => rfl, nofun, nofun, fun _ => rfl, nofun⟩

/-- Every step of DEC in RUN keeps its invariant (R164, R173, R176). -/
theorem Dec.Wf.next {d : Dec} (h : d.Wf) (hrun : d.status = .run) : d.next.Wf := by
  obtain ⟨_, hpos⟩ := d.next_rPos
  have hclean := h.clean (.inl hrun)
  have wf_of_status (hpadding : d.next.status = .padding → d.next.padNz = true ∧ d.next.strict = true)
      (hwarning : d.next.status = .ok → d.next.padNz = true → d.next.strict = false)
      (hquiet : d.next.status = .run ∨ d.next.status = .truncated → d.next.padNz = false)
      (hidle : d.next.status ≠ .idle) : d.next.Wf := by
    refine ⟨?_, ?_, fun _ => ?_, hpadding, hwarning, hquiet, fun hst => absurd hst hidle⟩
    · rw [Dec.next_mem]
      exact h.buf_wf
    · rw [Dec.next_mem]
      exact hpos h.pos_le
    · rw [Dec.next_buf]
      exact h.has_buf (by simp [hrun])
  rcases d.next_status with ⟨p, _, hstatus, hpad⟩ | ⟨p, _, hnext⟩ | ⟨i, p, _, _, hstatus, hpad⟩
  · exact wf_of_status (by simp [hstatus]) (by simp [hstatus]) (by simp [hpad, hclean]) (by simp [hstatus])
  · rcases (d.seek p).terminated_status with ⟨hstatus, hpad⟩ | ⟨hstatus, hpad, hstrict⟩ | ⟨hstatus, hpad, hstrict⟩
    all_goals
      rw [← hnext] at hstatus hpad
      refine wf_of_status ?_ ?_ ?_ ?_ <;> simp_all
  · exact wf_of_status (by simp [hstatus, hrun]) (by simp [hstatus, hrun]) (by simp [hpad, hclean])
      (by simp [hstatus, hrun])

/-! ## The machine -/

/-- Settles O35: the reset values of both units. -/
theorem resetMeetsTheInvariant : Obligations.ResetMeetsTheInvariant :=
  fun _ => ⟨Enc.wf_reset, Dec.wf_reset⟩

/-- Settles O34: a step changes one unit by one of its operations, or sets both at a reset. -/
theorem everyStepKeepsTheInvariant : Obligations.EveryStepKeepsTheInvariant := by
  intro s t hinv hstep
  rcases step_next_cases hstep with ⟨_, _, hrun, rfl⟩ | ⟨a, _, e, _, ha, htakes, rfl⟩ | ⟨buf, strict, _, _, rfl⟩ |
    ⟨_, _, _, rfl⟩ | ⟨_, _, rfl⟩
  · exact ⟨hinv.enc, hinv.dec.next hrun⟩
  · exact ⟨hinv.enc.takes ha htakes, hinv.dec⟩
  · exact ⟨hinv.enc, Dec.wf_started buf strict⟩
  · exact ⟨hinv.enc, hinv.dec⟩
  · exact ⟨Enc.wf_reset, Dec.wf_reset⟩

end Sys2Proof.Machine
end

section
/-! PROOFS. The decode call as a loop on DEC alone (`45_run_decoder.md` sections 6 and 7): it ends, it depends on its
arguments only, and `strict` shows in the status only. -/

namespace Sys2Proof.Machine

/-! ## The loop on DEC -/

/-- DEC steps while its status is RUN, at most `fuel` times (R179). -/
def Dec.loop : (fuel : Nat) → Dec → Dec
  | 0, d => d
  | fuel + 1, d => if d.status = .run then d.next.loop fuel else d

theorem Dec.loop_of_not_run {d : Dec} (h : d.status ≠ .run) (fuel : Nat) : d.loop fuel = d := by
  cases fuel with
  | zero => rfl
  | succ fuel => exact if_neg h

theorem Dec.loop_succ_of_run {d : Dec} (h : d.status = .run) (fuel : Nat) :
    d.loop (fuel + 1) = d.next.loop fuel := if_pos h

/-- The loop of the model acts on DEC and on nothing else. -/
theorem decLoop_eq (fuel : Nat) (s : State) : decLoop fuel s = s.withDec (s.dec.loop fuel) := by
  induction fuel generalizing s with
  | zero => rfl
  | succ fuel ih =>
    by_cases hrun : s.dec.status = .run
    · rw [decLoop, if_pos hrun, decStep_eq, Dec.loop_succ_of_run hrun]
      exact ih (s.withDec s.dec.next)
    · rw [decLoop_of_not_run hrun, Dec.loop_of_not_run hrun, State.withDec_self]

theorem decodeFrom_eq (s : State) (buf : List Byte) (strict : Bool) :
    decodeFrom s buf strict = s.withDec ((Dec.started buf strict).loop (8 * buf.length + 1)) :=
  decLoop_eq ..

/-- Settles O42: a call replaces all of DEC before its first step. -/
theorem decodeIgnoresWhatCameBefore : Obligations.DecodeIgnoresWhatCameBefore := by
  intro s s' buf strict
  rw [decodeFrom_eq, decodeFrom_eq]
  rfl

/-! ## Termination -/

/-- A step from RUN stays in RUN, further on inside the buffer, or ends the call (R76, R176). -/
theorem Dec.next_advances {d : Dec} (hrun : d.status = .run) :
    (d.next.status = .run ∧ d.bsr.rPos < d.next.bsr.rPos ∧ d.next.bsr.rPos ≤ 8 * d.bsr.mem.size) ∨
    d.next.status.terminal = true := by
  rcases d.next_cases with ⟨i, p, hdecode, h⟩ | ⟨p, _, h⟩
  · by_cases hi : i = .term
    · subst hi
      have hnext : d.next = (d.seek p).terminated := h
      rw [hnext]
      rcases (d.seek p).terminated_status with ⟨hst, _⟩ | ⟨hst, _⟩ | ⟨hst, _⟩ <;> exact .inr (by rw [hst]; rfl)
    · obtain ⟨hstatus, _⟩ := (d.seek p).exec_of_ne_term hi
      rw [h, Dec.exec_bsr]
      exact .inl ⟨hstatus.trans hrun, decode_pattern_bounds hdecode⟩
  · rw [h]
    exact .inr rfl

theorem not_run_of_terminal {st : Status} (h : st.terminal = true) : st ≠ .run := by
  rintro rfl
  cases h

/-- With the script empty the machine's steps are the turns of the loop, and more turns than bits left reach a terminal
status (R222). -/
theorem exists_run_loop {fuel : Nat} {s : State} (hin : s.inputs = []) (hrun : s.dec.status = .run)
    (hfuel : 8 * s.dec.bsr.mem.size - s.dec.bsr.rPos < fuel) :
    ∃ k, k ≤ fuel ∧ Host.Core.run Sys2Proof.core k s = .next (s.withDec (s.dec.loop fuel)) ∧
      (s.dec.loop fuel).status.terminal = true := by
  induction fuel generalizing s with
  | zero => omega
  | succ fuel ih =>
    have hstep : step s = .next (s.withDec s.dec.next) := by
      rw [step_decMoves_run (decMoves_empty hin) hrun, ← hin, State.withInputs_self]
    rw [Dec.loop_succ_of_run hrun]
    rcases Dec.next_advances hrun with ⟨hrun', hlt, hle⟩ | hterm
    · obtain ⟨k, hk, hsteps, hterm⟩ := ih (s := s.withDec s.dec.next) hin hrun'
        (by rw [State.withDec_dec, Dec.next_mem]; omega)
      exact ⟨k + 1, by omega, (run_succ_of_step hstep k).trans hsteps, hterm⟩
    · rw [Dec.loop_of_not_run (not_run_of_terminal hterm)]
      exact ⟨1, by omega, run_succ_of_step hstep 0, hterm⟩

/-- Outside RUN the command `dec_start` at the head of the script is taken (R207). -/
theorem step_decStart {s : State} {buf : List Byte} {strict : Bool} {rest : List Input}
    (hin : s.inputs = .decStart buf strict :: rest) (hstatus : s.dec.status ≠ .run) :
    step s = .next ((s.withInputs rest).withDec (Dec.started buf strict)) := by
  rw [step_input hin]
  exact if_neg hstatus

/-- Settles O41: after `dec_start` every step in RUN consumes a bit of the buffer. -/
theorem everyDecodeCallTerminates : Obligations.EveryDecodeCallTerminates := by
  intro s buf strict hstatus
  have hstart := step_decStart (s := s.withInputs [.decStart buf strict]) rfl hstatus
  obtain ⟨k, hk, hsteps, hterm⟩ := exists_run_loop (fuel := 8 * buf.length + 1)
    (s := (s.withInputs []).withDec (Dec.started buf strict)) rfl rfl
    (by simp only [State.withDec_dec, Dec.started_mem, Memory.size_ofBytes, Dec.started_rPos]; omega)
  exact ⟨k, _, hk, (run_succ_of_step hstart k).trans hsteps, hterm, by rw [decodeFrom_eq]; rfl, rfl⟩

/-! ## The strict flag -/

/-- `DEC.strict` replaced, all else kept. -/
def Dec.withStrict (d : Dec) (strict : Bool) : Dec := { d with strict := strict }

theorem Dec.data_withStrict (d : Dec) (n : Nat) (strict : Bool) :
    (d.withStrict strict).data n = (d.data n).withStrict strict := by
  unfold Dec.data
  rw [apply_ite (Dec.withStrict · strict)]
  rfl

theorem Dec.exec_withStrict {i : Instr} (hi : i ≠ .term) (d : Dec) (strict : Bool) :
    (d.withStrict strict).exec i = (d.exec i).withStrict strict := by
  rcases d.exec_cases i with ⟨n, hlen, h⟩ | ⟨rfl, _⟩ | ⟨rfl, _⟩ | ⟨hterm, _⟩
  · rw [h, Dec.exec_of_dataLen hlen, Dec.data_withStrict]
  · rfl
  · rfl
  · exact absurd hterm hi

/-- A step other than `TERM` does not look at the flag. -/
theorem Dec.next_withStrict {d : Dec} (h : ∀ p, decode (tableOf d) d.bsr.mem d.bsr.rPos ≠ .pattern .term p)
    (strict : Bool) : (d.withStrict strict).next = d.next.withStrict strict := by
  rcases d.next_cases with ⟨i, p, hdecode, hnext⟩ | ⟨p, hdecode, hnext⟩
  · have hi : i ≠ .term := fun hi => h p (hi ▸ hdecode)
    rw [hnext, ← Dec.exec_withStrict hi]
    exact Dec.next_of_pattern hdecode
  · rw [hnext]
    exact Dec.next_of_endOfInput hdecode

/-- What a strict and a lenient DEC have in common at the end of a call on one buffer: all but the status, and the
status too unless the padding is not zero (R182, D7). -/
structure Dec.StrictAgree (strict lenient : Dec) : Prop where
  out_eq : strict.out = lenient.out
  padNz_eq : strict.padNz = lenient.padNz
  truncated_iff : strict.status = .truncated ↔ lenient.status = .truncated
  lenient_ne_padding : lenient.status ≠ .padding
  of_ne : strict.status ≠ lenient.status →
    (strict.status = .padding ∧ strict.padNz = true) ∧ lenient.status = .ok ∧ lenient.padNz = true

theorem Dec.strictAgree_of_ne_padding {d : Dec} (h : d.status ≠ .padding) :
    (d.withStrict true).StrictAgree (d.withStrict false) :=
  ⟨rfl, rfl, Iff.rfl, h, fun hne => absurd rfl hne⟩

theorem Dec.strictAgree_terminated (d : Dec) :
    ((d.withStrict true).terminated).StrictAgree (d.withStrict false).terminated := by
  unfold Dec.terminated
  have hsame (strict : Bool) : finishRead (d.withStrict strict).bsr = finishRead d.bsr := rfl
  rw [hsame, hsame]
  cases finishRead d.bsr with
  | ok => exact ⟨rfl, rfl, by simp, by simp, by simp⟩
  | paddingError => exact ⟨rfl, rfl, by simp [withStrict], by simp [withStrict], by simp [withStrict]⟩

theorem Dec.terminated_ne_run (d : Dec) : d.terminated.status ≠ .run := by
  rcases d.terminated_status with ⟨h, _⟩ | ⟨h, _⟩ | ⟨h, _⟩ <;> simp [h]

/-- Two decoders that differ in the flag only stay so until a `TERM`, which ends both calls. -/
theorem Dec.strictAgree_loop {d : Dec} (hrun : d.status = .run) (fuel : Nat) :
    ((d.withStrict true).loop fuel).StrictAgree ((d.withStrict false).loop fuel) := by
  induction fuel generalizing d with
  | zero => exact Dec.strictAgree_of_ne_padding (by simp [hrun])
  | succ fuel ih =>
    have hloop (strict : Bool) : (d.withStrict strict).loop (fuel + 1) = (d.withStrict strict).next.loop fuel :=
      Dec.loop_succ_of_run (d := d.withStrict strict) hrun fuel
    rw [hloop, hloop]
    by_cases hterm : ∃ p, decode (tableOf d) d.bsr.mem d.bsr.rPos = .pattern .term p
    · obtain ⟨p, hterm⟩ := hterm
      have hnext (strict : Bool) : (d.withStrict strict).next = ((d.seek p).withStrict strict).terminated :=
        Dec.next_of_pattern (d := d.withStrict strict) hterm
      rw [hnext, hnext, Dec.loop_of_not_run (Dec.terminated_ne_run _),
        Dec.loop_of_not_run (Dec.terminated_ne_run _)]
      exact (d.seek p).strictAgree_terminated
    · have hother := not_exists.mp hterm
      rw [Dec.next_withStrict hother, Dec.next_withStrict hother]
      rcases d.next_status with ⟨_, _, htrunc, _⟩ | ⟨p, hdecode, _⟩ | ⟨_, _, _, _, hstatus, _⟩
      · have hstop (strict : Bool) : (d.next.withStrict strict).status ≠ .run := by simp [Dec.withStrict, htrunc]
        rw [Dec.loop_of_not_run (hstop true), Dec.loop_of_not_run (hstop false)]
        exact Dec.strictAgree_of_ne_padding (by simp [htrunc])
      · exact absurd hdecode (hother p)
      · exact ih (hstatus.trans hrun)

theorem decompress_eq (buf : List Byte) (strict : Bool) :
    decompress buf strict =
      let d := (Dec.started buf strict).loop (8 * buf.length + 1)
      (d.out, d.status, d.padNz) := by
  rw [decompress, decodeFrom_eq]
  rfl

/-- Settles O40: the two calls differ in the flag, which only `TERM` looks at. -/
theorem strictOnlySelectsTheStatus : Obligations.StrictOnlySelectsTheStatus := by
  intro buf
  obtain ⟨hout, hpad, htrunc, hlenient, hne⟩ :=
    Dec.strictAgree_loop (d := Dec.started buf true) rfl (8 * buf.length + 1)
  rw [decompress_eq, decompress_eq]
  refine ⟨hout, hpad, htrunc, hlenient, fun hdiff => ?_⟩
  obtain ⟨⟨hs, hsp⟩, hl, hlp⟩ := hne hdiff
  exact ⟨Prod.ext hs hsp, Prod.ext hl hlp⟩

end Sys2Proof.Machine
end

section
/-! PROOFS. ENC and the canonical stream (`44_run_encoder.md`): what each token writes, how a run is split, the layout and
the size of the stream, and that the token machine writes it. -/

namespace Sys2Proof.Machine

/-! ## The tokens -/

theorem encBit_of_no_run {e : Enc} (h : e.haveRun = false) (b : Bool) :
    encBit b e = .ok { e with haveRun := true, val := b, len := 1 } := by
  simp [encBit, h]

theorem encBit_of_same {e : Enc} (h : e.haveRun = true) : encBit e.val e = .ok { e with len := e.len + 1 } := by
  simp [encBit, h]

/-- A bit of the other value writes the pending run and begins the next (R143, R145). -/
theorem encBit_of_ne {e : Enc} {b : Bool} (h : e.haveRun = true) (hb : e.val ≠ b) (hlen : 1 ≤ e.len)
    (hfin : e.bsw.fin = false) :
    encBit b e = .ok { e with
      mode := (Mode.ofBit e.val).other
      val := b
      len := 1
      bsw := putString ((emitRunSymbols e.mode e.val e.len).flatMap symbolBits) e.bsw } := by
  simp [encBit, h, hb.symm, emitRun_eq_putString hlen e.val hfin]

/-- Settles O43: the three cases of a bit. -/
theorem bitTokenScansRuns : Obligations.BitTokenScansRuns := by
  intro s b rest hin hphase
  have token {e : Enc} (h : encBit b s.enc = .ok e) : step s = .next ((s.withInputs rest).withEnc e) :=
    step_token hin ((encStep_bit hphase b).trans h)
  refine ⟨fun hrun => token (encBit_of_no_run hrun b), fun hrun hval => ?_,
    fun hrun hval hlen hfin => token (encBit_of_ne hrun hval hlen hfin)⟩
  subst hval
  exact token (encBit_of_same hrun)

/-- The bits that `END` writes: the pending run, if any, and the termination (R144, R150). -/
def Enc.lastBits (e : Enc) : Bits :=
  (if e.haveRun then emitRunSymbols e.mode e.val e.len else []).flatMap symbolBits ++ encode .term

theorem finalize_of_finishWrite {e : Enc} {b : Bsw} (hfin : e.bsw.fin = false)
    (h : finishWrite (putString (encode .term) e.bsw) = .ok b) :
    finalize e = .ok { e with bsw := b, phase := .done } :=
  finalize_eq_ok.mpr ⟨_, b, emit_encode (tbl := .mode0) rfl rfl hfin, h, rfl⟩

/-- `END` in RUN: the pending run and the termination go out, and the stream is padded (R144, R150). -/
theorem encEnd_of_finishWrite {e : Enc} {b : Bsw} (hlen : e.haveRun = true → 1 ≤ e.len)
    (hfin : e.bsw.fin = false) (h : finishWrite (putString e.lastBits e.bsw) = .ok b) :
    encEnd e = .ok { e with
      mode := if e.haveRun then (Mode.ofBit e.val).other else e.mode
      haveRun := false
      phase := .done
      bsw := b } := by
  rw [Enc.lastBits, putString_append] at h
  unfold encEnd
  cases hrun : e.haveRun with
  | true =>
    rw [hrun, if_pos rfl] at h
    rw [if_pos rfl, emitRun_eq_putString (hlen hrun) e.val hfin]
    exact finalize_of_finishWrite ((putString_fin ..).trans hfin) h
  | false =>
    rw [hrun, if_neg (by decide)] at h
    rw [if_neg (by decide), finalize_of_finishWrite hfin h]
    simp [← hrun]

/-- Settles O44: `END` writes the last bits and finishes the sequencer, which was not finished. -/
theorem endTokenFinalizes : Obligations.EndTokenFinalizes := by
  intro s rest hin hphase hfin hlen
  obtain ⟨b, hb⟩ := exists_finishWrite (b := putString s.enc.lastBits s.enc.bsw) ((putString_fin ..).trans hfin)
  exact ⟨b, hb, step_token hin ((encStep_endToken hphase).trans (encEnd_of_finishWrite hlen hfin hb))⟩

/-! ## Splitting a run -/

/-- The pieces of a run: as many of `MAX` as leave a remainder of at least 1, and the remainder (R145, R154). -/
theorem pieces_eq {m : Mode} {fuel L : Nat} (hpos : 1 ≤ L) (hfuel : L ≤ fuel) :
    pieces m fuel L = List.replicate ((L - 1) / Config.maxLen m) (Config.maxLen m) ++
      [L - (L - 1) / Config.maxLen m * Config.maxLen m] := by
  have hmax := maxLen_pos m
  induction fuel generalizing L with
  | zero => omega
  | succ fuel ih =>
    rw [pieces]
    split
    · rename_i hle
      have hzero : (L - 1) / Config.maxLen m = 0 := Nat.div_eq_of_lt (by omega)
      simp [hzero]
    · rename_i hgt
      have hquot : (L - 1) / Config.maxLen m = (L - Config.maxLen m - 1) / Config.maxLen m + 1 := by
        rw [← Nat.add_div_right _ hmax]
        congr 1
        omega
      have hrest : L - Config.maxLen m - (L - Config.maxLen m - 1) / Config.maxLen m * Config.maxLen m =
          L - (L - 1) / Config.maxLen m * Config.maxLen m := by
        rw [hquot, Nat.add_mul, one_mul]
        omega
      rw [ih (by omega) (by omega), hrest, hquot, List.replicate_succ, List.cons_append]

/-- The remainder of a split run is a length of the table. -/
theorem split_remainder_in_range {m : Mode} {L : Nat} (hpos : 1 ≤ L) :
    1 ≤ L - (L - 1) / Config.maxLen m * Config.maxLen m ∧
      L - (L - 1) / Config.maxLen m * Config.maxLen m ≤ Config.maxLen m := by
  refine pieces_in_range (m := m) hpos le_rfl ?_
  rw [pieces_eq hpos le_rfl]
  exact List.mem_append_right _ (List.mem_singleton_self _)

theorem runSymbols_of_le {v : Bool} {n : Nat} (hn : n ≤ Config.maxLen (Mode.ofBit v)) :
    runSymbols v n = [.ordinary (Mode.ofBit v) n] := by
  cases n with
  | zero => rfl
  | succ n => simp [runSymbols, pieces, hn]

/-- The layout of a split run: one ordinary symbol of `MAX`, then continuations, the remainder last (R84, R147). -/
theorem runSymbols_of_gt {v : Bool} {n : Nat} (hn : Config.maxLen (Mode.ofBit v) < n) :
    runSymbols v n =
      let m := Mode.ofBit v
      let q := (n - 1) / Config.maxLen m
      .ordinary m (Config.maxLen m) :: (List.replicate (q - 1) (.continuation m (Config.maxLen m)) ++
        [.continuation m (n - q * Config.maxLen m)]) := by
  have hq : 0 < (n - 1) / Config.maxLen (Mode.ofBit v) := Nat.div_pos (by omega) (maxLen_pos _)
  obtain ⟨k, hk⟩ := Nat.exists_eq_add_one.mpr hq
  rw [runSymbols, pieces_eq (by omega) le_rfl, hk, List.replicate_succ, List.cons_append]
  simp [hk]

/-- Settles O45: the pieces in closed form, and the symbols made of them. -/
theorem runSplitsIntoMaximalPieces : Obligations.RunSplitsIntoMaximalPieces := by
  intro m L hpos
  have hmax := maxLen_pos m
  obtain ⟨hlow, hhigh⟩ := split_remainder_in_range (m := m) hpos
  refine ⟨pieces_eq hpos le_rfl, hlow, hhigh, pieces_sum m L L, ?_, ?_⟩
  · have hcount : L + Config.maxLen m - 1 = L - 1 + Config.maxLen m := by omega
    rw [pieces_eq hpos le_rfl, hcount, Nat.add_div_right _ hmax]
    simp
  · rintro v active rfl
    rw [emitRunSymbols]
    congr 1
    split
    · rename_i hzero
      exact runSymbols_of_le (by have := Nat.lt_of_div_eq_zero hmax hzero; omega)
    · rename_i hne
      refine runSymbols_of_gt ?_
      by_contra hle
      exact hne (Nat.div_eq_of_lt (by omega))

/-! ## The size of the stream -/

@[simp] theorem encode_cont_length : (encode .cont).length = 24 := rfl
@[simp] theorem encode_mchg_length : (encode .mchg).length = 24 := rfl
@[simp] theorem encode_term_length : (encode .term).length = 24 := rfl

/-- The largest length of a table has a pattern of the overflow tier, of 24 bits (R67, R71). -/
theorem encodeLen_maxLen_length (m : Mode) : ((encodeLen m (Config.maxLen m)).getD []).length = 24 := by
  have hmax : encodeLen m (Config.maxLen m) = some (overflowBits Config.ovfXmax) := encodeLen_ovfLen m le_rfl
  rw [hmax, Option.getD_some, Laws.overflowBits_length]

/-- What a run costs is what its symbols take (R155). -/
theorem runSymbols_bits_length (v : Bool) (n : Nat) :
    ((runSymbols v n).flatMap symbolBits).length = runCost v n := by
  by_cases hle : n ≤ Config.maxLen (Mode.ofBit v)
  · simp [runCost, runSymbols_of_le hle, symbolBits, hle]
  · simp only [runCost, if_neg hle, runSymbols_of_gt (Nat.lt_of_not_le hle), List.flatMap_cons, List.flatMap_append, List.flatMap_replicate,
      List.flatMap_nil, List.length_append, List.length_flatten, List.map_replicate, List.sum_replicate, symbolBits,
      encode_cont_length, encodeLen_maxLen_length, List.append_nil, smul_eq_mul]
    omega

/-- Settles O50: the lengths of the parts of the stream, summed. -/
theorem streamSizeLaw : Obligations.StreamSizeLaw := by
  intro b
  have hruns : (((runsOf b).flatMap fun r => runSymbols r.1 r.2).flatMap symbolBits).length =
      ((runsOf b).map fun r => runCost r.1 r.2).sum := by
    rw [List.flatMap_assoc, List.length_flatMap]
    simp only [runSymbols_bits_length]
  have hlen : (streamBits b).length =
      (if b.head? = some true then 24 else 0) + ((runsOf b).map fun r => runCost r.1 r.2).sum + 24 := by
    rw [streamBits_eq, List.length_append, List.length_append, hruns, encode_term_length, ← Nat.add_assoc]
    split <;> simp
  have hbytes : (compress b).length = ((streamBits b).length + 7) / 8 := packBytes_length _
  exact ⟨hlen, hbytes, by omega⟩

/-! ## Where the control patterns stand -/

theorem pieces_eq_cons (m : Mode) (fuel L : Nat) : ∃ a ks, pieces m fuel L = a :: ks := by
  cases fuel with
  | zero => exact ⟨L, [], rfl⟩
  | succ fuel => rw [pieces]; split <;> exact ⟨_, _, rfl⟩

/-- A run is an ordinary symbol and then continuation symbols of its own table (R84, R147). -/
theorem runSymbols_eq_cons (v : Bool) (n : Nat) : ∃ (a : Nat) (ks : List Nat),
    runSymbols v n = .ordinary (Mode.ofBit v) a :: ks.map (.continuation (Mode.ofBit v)) := by
  obtain ⟨a, ks, h⟩ := pieces_eq_cons (Mode.ofBit v) n n
  exact ⟨a, ks, by rw [runSymbols, h]⟩

/-- The symbol carries a run length: it is no mode change and no termination. -/
def Symbol.IsData : Symbol → Prop
  | .ordinary _ _ | .continuation _ _ => True
  | .modeChange | .termination => False

theorem runSymbols_isData {v : Bool} {n : Nat} {y : Symbol} (hy : y ∈ runSymbols v n) : y.IsData := by
  obtain ⟨a, ks, h⟩ := runSymbols_eq_cons v n
  rw [h, List.mem_cons, List.mem_map] at hy
  rcases hy with rfl | ⟨k, _, rfl⟩ <;> trivial

/-- The symbol carries `MAX` of the table `m`. -/
def Symbol.Full (m : Mode) (y : Symbol) : Prop :=
  y = .ordinary m (Config.maxLen m) ∨ y = .continuation m (Config.maxLen m)

/-- `y'` may stand directly after `y`: a continuation symbol only after a full one of its table (R138). -/
def Symbol.Follows (y y' : Symbol) : Prop := ∀ m n, y' = .continuation m n → y.Full m

theorem Symbol.follows_continuation {m : Mode} {y : Symbol} (h : y.Full m) (n : Nat) :
    y.Follows (.continuation m n) := by
  rintro _ _ ⟨⟩
  exact h

theorem isChain_continuations {m : Mode} {y : Symbol} (h : y.Full m) (k r : Nat) :
    (y :: (List.replicate k (.continuation m (Config.maxLen m)) ++ [.continuation m r])).IsChain
      Symbol.Follows := by
  induction k generalizing y with
  | zero => exact .cons_cons (Symbol.follows_continuation h r) (.singleton _)
  | succ k ih => exact .cons_cons (Symbol.follows_continuation h _) (ih (.inr rfl))

theorem runSymbols_isChain (v : Bool) (n : Nat) : (runSymbols v n).IsChain Symbol.Follows := by
  rcases Nat.lt_or_ge (Config.maxLen (Mode.ofBit v)) n with hgt | hle
  · rw [runSymbols_of_gt hgt]
    exact isChain_continuations (.inl rfl) _ _
  · rw [runSymbols_of_le hle]
    exact .singleton _

/-- A list of runs begins with an ordinary symbol, if it has any. -/
theorem head_runsSymbols {rs : List (Bool × Nat)} {y : Symbol}
    (hy : y ∈ (rs.flatMap fun r => runSymbols r.1 r.2).head?) : ∃ m n, y = .ordinary m n := by
  cases rs with
  | nil => cases hy
  | cons r rs =>
    obtain ⟨a, ks, h⟩ := runSymbols_eq_cons r.1 r.2
    rw [List.flatMap_cons, h, List.cons_append, List.head?_cons, Option.mem_some_iff] at hy
    exact ⟨_, _, hy.symm⟩

theorem runsSymbols_isChain (rs : List (Bool × Nat)) :
    (rs.flatMap fun r => runSymbols r.1 r.2).IsChain Symbol.Follows := by
  induction rs with
  | nil => exact .nil
  | cons r rs ih =>
    rw [List.flatMap_cons, List.isChain_append]
    refine ⟨runSymbols_isChain r.1 r.2, ih, fun _ _ y hy => ?_⟩
    obtain ⟨m, n, rfl⟩ := head_runsSymbols hy
    nofun

/-- A data pattern has a table, so in `tbl` it is `tbl` (R64). -/
theorem table_of_dataLen {i : Instr} {n : Nat} {tbl : Mode} (hlen : dataLen i = some n)
    (htbl : i.inTable tbl = true) : i.table = some tbl := by
  cases ht : i.table with
  | some t => rw [eq_of_inTable ht htbl]
  | none => cases i <;> simp_all [Instr.table, dataLen]

/-- Settles O51: the symbols of the runs are data symbols, and each continuation follows a full symbol of its run. -/
theorem controlSymbolPlacement : Obligations.ControlSymbolPlacement := by
  intro b
  have hdata {y : Symbol} (hy : y ∈ (runsOf b).flatMap fun r => runSymbols r.1 r.2) : y.IsData ∧ y.LenInRange := by
    obtain ⟨r, hr, hy⟩ := List.mem_flatMap.mp hy
    exact ⟨runSymbols_isData hy, runSymbols_in_range (runsOf_pos b r hr) hy⟩
  have hrange {y : Symbol} (hy : y ∈ (runsOf b).flatMap fun r => runSymbols r.1 r.2) := (hdata hy).2
  refine ⟨(runsOf b).flatMap fun r => runSymbols r.1 r.2, rfl, fun hy => (hdata (y := .modeChange) hy).1,
    fun hy => (hdata (y := .termination) hy).1, fun m n => hrange, fun m n => hrange, fun pre post m n hmid => ⟨?_, ?_⟩⟩
  · have hchain := runsSymbols_isChain (runsOf b)
    rw [hmid] at hchain
    rcases List.eq_nil_or_concat pre with rfl | ⟨before, y, rfl⟩
    · obtain ⟨_, _, h⟩ := head_runsSymbols (rs := runsOf b) (y := .continuation m n) (by rw [hmid]; rfl)
      cases h
    · rw [List.concat_eq_append] at hchain ⊢
      rw [List.isChain_append] at hchain
      obtain ⟨_, _, hfollows⟩ := hchain
      refine ⟨before, ?_⟩
      rcases hfollows y (by simp) _ rfl m n rfl with rfl | rfl
      · exact .inl rfl
      · exact .inr rfl
  · obtain ⟨hpos, hn⟩ := hrange (y := .continuation m n) (by rw [hmid]; simp)
    obtain ⟨i, hwf, htbl, hlen⟩ := exists_pattern_of_len hpos hn
    refine ⟨i, hwf, table_of_dataLen hlen htbl, hlen, ?_⟩
    rw [symbolBits, encodeLen_of_dataLen hwf htbl hlen, Option.getD_some]

/-! ## ENC writes the canonical stream -/

theorem emitRunSymbols_bits (active : Mode) (v : Bool) (n : Nat) :
    (emitRunSymbols active v n).flatMap symbolBits =
      (if Mode.ofBit v = active then [] else encode .mchg) ++ (runSymbols v n).flatMap symbolBits := by
  rw [emitRunSymbols, List.flatMap_append]
  congr 1
  split <;> simp [symbolBits]

theorem runsOf_cons_eq (x : Bool) (b : Bits) : ∃ n rs, runsOf (x :: b) = (x, n) :: rs := by
  rcases runsOf_cons_cases x b with ⟨_, h⟩ | ⟨n, rs, _, h⟩ | ⟨n, rs, _, h⟩ <;> exact ⟨_, _, h⟩

/-- A run that ends before a bit of the other value is the first of the runs (R141). -/
theorem runsOf_replicate_append {v x : Bool} (hne : v ≠ x) (n : Nat) (b : Bits) :
    runsOf (List.replicate (n + 1) v ++ x :: b) = (v, n + 1) :: runsOf (x :: b) := by
  induction n with
  | zero =>
    obtain ⟨k, rs, h⟩ := runsOf_cons_eq x b
    rw [List.replicate_one, List.singleton_append, runsOf, h]
    simp [hne.symm]
  | succ n ih =>
    rw [List.replicate_succ, List.cons_append, runsOf, ih]
    simp

/-- The bits ENC has still to write when the input ends: its pending run extended by the bits `b` to come, in runs,
the first with a mode change unless its mode is the active one, and the termination. -/
def Enc.bitsToWrite (e : Enc) (b : Bits) : Bits :=
  (if Mode.ofBit e.val = e.mode then [] else encode .mchg) ++
    (((runsOf (List.replicate e.len e.val ++ b)).flatMap fun r => runSymbols r.1 r.2).flatMap symbolBits ++
      encode .term)

theorem Enc.bitsToWrite_nil {e : Enc} (hrun : e.haveRun = true) (hlen : 1 ≤ e.len) : e.bitsToWrite [] = e.lastBits := by
  obtain ⟨n, hn⟩ := Nat.exists_eq_add_one.mpr hlen
  have hruns : runsOf (List.replicate e.len e.val ++ []) = [(e.val, e.len)] := by
    rw [List.append_nil, hn, runsOf_replicate]
  rw [bitsToWrite, lastBits, if_pos hrun, emitRunSymbols_bits, hruns, List.flatMap_singleton, List.append_assoc]

theorem Enc.bitsToWrite_same (e : Enc) (b : Bits) :
    e.bitsToWrite (e.val :: b) = Enc.bitsToWrite { e with len := e.len + 1 } b := by
  rw [bitsToWrite, bitsToWrite, List.replicate_succ', List.append_assoc, List.singleton_append]

/-- Writing the pending run now, and the runs to come later, is writing all of them later. -/
theorem Enc.bitsToWrite_ne {e : Enc} {x : Bool} (hlen : 1 ≤ e.len) (hx : e.val ≠ x) (b : Bits) (bsw : Bsw) :
    e.bitsToWrite (x :: b) = (emitRunSymbols e.mode e.val e.len).flatMap symbolBits ++
      Enc.bitsToWrite { e with mode := (Mode.ofBit e.val).other, val := x, len := 1, bsw := bsw } b := by
  obtain ⟨n, hn⟩ := Nat.exists_eq_add_one.mpr hlen
  have hmode : Mode.ofBit x = (Mode.ofBit e.val).other := by
    rw [← Mode.ofBit_not, ← Bool.eq_not.mpr hx.symm]
  have hruns : runsOf (List.replicate e.len e.val ++ x :: b) = (e.val, e.len) :: runsOf (x :: b) := by
    rw [hn]
    exact runsOf_replicate_append hx n b
  rw [bitsToWrite, bitsToWrite, hruns, if_pos hmode, emitRunSymbols_bits, List.flatMap_cons, List.flatMap_append]
  simp

/-- From any state with a run pending the bits to come and `END` write what is still to write, and pad it. -/
theorem run_pending_then_end (b : Bits) {s : State} (he : s.enc.Accepting) (hrun : s.enc.haveRun = true)
    (hin : s.inputs = b.map (fun x => .token (.bit x)) ++ [.token .endToken]) :
    ∃ t, Host.Core.run Sys2Proof.core (b.length + 1) s = .next t ∧ t.enc.phase = .done ∧ t.dec = s.dec ∧
      t.inputs = [] ∧ finishWrite (putString (s.enc.bitsToWrite b) s.enc.bsw) = .ok t.enc.bsw := by
  induction b generalizing s with
  | nil =>
    obtain ⟨hphase, hfin, hlen⟩ := he
    obtain ⟨b, hb⟩ := exists_finishWrite (b := putString s.enc.lastBits s.enc.bsw) ((putString_fin ..).trans hfin)
    have hstep := step_token hin ((encStep_endToken hphase).trans (encEnd_of_finishWrite hlen hfin hb))
    rw [← Enc.bitsToWrite_nil hrun (hlen hrun)] at hb
    exact ⟨_, run_succ_of_step hstep 0, rfl, rfl, rfl, hb⟩
  | cons x b ih =>
    obtain ⟨hphase, hfin, hlen⟩ := he
    have next {e : Enc} (hbit : encBit x s.enc = .ok e) (hacc : e.Accepting) (hrun : e.haveRun = true)
        (hbits : putString (s.enc.bitsToWrite (x :: b)) s.enc.bsw = putString (e.bitsToWrite b) e.bsw) :
        ∃ t, Host.Core.run Sys2Proof.core ((x :: b).length + 1) s = .next t ∧ t.enc.phase = .done ∧
          t.dec = s.dec ∧ t.inputs = [] ∧
          finishWrite (putString (s.enc.bitsToWrite (x :: b)) s.enc.bsw) = .ok t.enc.bsw := by
      have hstep := step_token hin ((encStep_bit hphase x).trans hbit)
      obtain ⟨t, hsteps, hend⟩ := ih (s := (s.withInputs _).withEnc e) hacc hrun rfl
      rw [hbits]
      exact ⟨t, (run_succ_of_step hstep _).trans hsteps, hend⟩
    by_cases hx : s.enc.val = x
    · subst hx
      refine next (encBit_of_same hrun) ⟨hphase, hfin, fun _ => Nat.le_add_left ..⟩ hrun ?_
      rw [Enc.bitsToWrite_same]
    · refine next (encBit_of_ne hrun hx (hlen hrun) hfin)
        ⟨hphase, (putString_fin ..).trans hfin, fun _ => le_rfl⟩ hrun ?_
      rw [Enc.bitsToWrite_ne (hlen hrun) hx, putString_append]

/-- From a start the bits and `END` write the canonical stream, and pad it (R152). -/
theorem run_started_then_end (b : Bits) {s : State} (he : s.enc = Enc.started)
    (hin : s.inputs = b.map (fun x => .token (.bit x)) ++ [.token .endToken]) :
    ∃ t, Host.Core.run Sys2Proof.core (b.length + 1) s = .next t ∧ t.enc.phase = .done ∧ t.dec = s.dec ∧
      t.inputs = [] ∧ finishWrite (putString (streamBits b) Bsw.reset) = .ok t.enc.bsw := by
  have hphase : s.enc.phase = .run := by rw [he]; rfl
  cases b with
  | nil =>
    obtain ⟨b, hb⟩ := exists_finishWrite (b := putString (streamBits []) Bsw.reset) (putString_fin ..)
    have hend := encEnd_of_finishWrite (e := Enc.started) (by simp) rfl hb
    have hstep := step_token hin ((encStep_endToken hphase).trans (he ▸ hend))
    exact ⟨_, run_succ_of_step hstep 0, rfl, rfl, rfl, hb⟩
  | cons x b =>
    have hbit : encBit x s.enc = .ok { Enc.started with haveRun := true, val := x, len := 1 } := by
      rw [he]
      exact encBit_of_no_run rfl x
    have hstep := step_token hin ((encStep_bit hphase x).trans hbit)
    obtain ⟨t, hsteps, hdone, hdec, hnil, hwrite⟩ := run_pending_then_end b
      (s := (s.withInputs _).withEnc { Enc.started with haveRun := true, val := x, len := 1 })
      ⟨rfl, rfl, fun _ => le_rfl⟩ rfl rfl
    refine ⟨t, (run_succ_of_step hstep _).trans hsteps, hdone, hdec, hnil, ?_⟩
    rw [streamBits_eq]
    cases x <;> exact hwrite

/-- Settles O47: what ENC has still to write is kept from token to token; at the start it is the canonical stream. -/
theorem encoderEmitsTheCanonicalStream : Obligations.EncoderEmitsTheCanonicalStream := by
  intro s b hphase
  have hstart := step_encStart (s := s.withInputs (encodeScript b)) rfl hphase
  obtain ⟨t, hsteps, hdone, hdec, hnil, hwrite⟩ := run_started_then_end b
    (s := (s.withInputs _).withEnc Enc.started) rfl rfl
  obtain ⟨bsw, hfinish, hout, _⟩ := finishWritePadsWithZeros (streamBits b)
  have hbsw : t.enc.bsw = bsw := Except.ok.inj (hwrite.symm.trans hfinish)
  exact ⟨t, (run_succ_of_step hstart _).trans hsteps, hdone, by rw [hbsw, hout]; rfl, hdec, hnil⟩

end Sys2Proof.Machine
end

section
/-! PROOFS. What DEC makes of one run, of two streams back to back, and of a stream cut short (`45_run_decoder.md`
sections 4 and 7, `70_reset_and_hazards.md` section 3), from its moves over the unread bits. -/

namespace Sys2Proof.Machine

/-! ## Moves of DEC as steps of the machine -/

theorem DecMove.eq_withDec {s t : State} (h : DecMove s t) : t = s.withDec s.dec.next :=
  Host.Outcome.next.inj (h.step.symm.trans (decStep_eq s))

/-- What DEC's moves leave unchanged, and that they only append to the output. -/
structure DecFrame (s t : State) : Prop where
  enc_eq : t.enc = s.enc
  inputs_eq : t.inputs = s.inputs
  buf_eq : t.dec.bsr.buf = s.dec.bsr.buf
  strict_eq : t.dec.strict = s.dec.strict
  out_le : s.dec.out <+: t.dec.out
  pos_le : s.dec.bsr.rPos ≤ 8 * s.dec.bsr.mem.size → t.dec.bsr.rPos ≤ 8 * t.dec.bsr.mem.size

theorem DecFrame.refl (s : State) : DecFrame s s := ⟨rfl, rfl, rfl, rfl, List.prefix_refl _, id⟩

theorem DecFrame.trans {s t u : State} (h : DecFrame s t) (h' : DecFrame t u) : DecFrame s u :=
  ⟨h'.enc_eq.trans h.enc_eq, h'.inputs_eq.trans h.inputs_eq, h'.buf_eq.trans h.buf_eq,
    h'.strict_eq.trans h.strict_eq, h.out_le.trans h'.out_le, h'.pos_le ∘ h.pos_le⟩

theorem DecMove.frame {s t : State} (h : DecMove s t) : DecFrame s t := by
  obtain rfl := h.eq_withDec
  obtain ⟨_, hpos⟩ := s.dec.next_rPos
  refine ⟨rfl, rfl, s.dec.next_buf, s.dec.next_strict, s.dec.out_le_next, fun hle => ?_⟩
  rw [State.withDec_dec, Dec.next_mem]
  exact hpos hle

theorem decFrame_of_moves {s t : State} (h : Relation.ReflTransGen DecMove s t) : DecFrame s t := by
  induction h with
  | refl => exact .refl s
  | tail _ hmove ih => exact ih.trans hmove.frame

/-- With an empty script the moves of DEC are steps of the machine. -/
theorem exists_run_of_moves {s t : State} (h : Relation.ReflTransGen DecMove s t) (hin : s.inputs = []) :
    ∃ k, Host.Core.run Sys2Proof.core k s = .next t := by
  induction h using Relation.ReflTransGen.head_induction_on with
  | refl => exact ⟨0, rfl⟩
  | head hmove _ ih =>
    obtain ⟨k, hk⟩ := ih (hmove.frame.inputs_eq.trans hin)
    have hstep := (step_empty hin).trans ((decTurn_run hmove.run).trans hmove.step)
    exact ⟨k + 1, (run_succ_of_step hstep k).trans hk⟩

/-! ## One run -/

theorem Bsr.unread_length (r : Bsr) : r.unread.length = 8 * r.mem.size - r.rPos := bitsAt_length ..

/-- Bits that stand at `r_pos` are at the front of the unread bits. -/
theorem Bsr.exists_unread_eq_append {r : Bsr} {bs : Bits} (hle : r.rPos + bs.length ≤ 8 * r.mem.size)
    (hbits : bitsAt r.mem r.rPos bs.length = bs) : ∃ rest, r.unread = bs ++ rest := by
  have hsplit : 8 * r.mem.size - r.rPos = bs.length + (8 * r.mem.size - r.rPos - bs.length) := by omega
  exact ⟨_, by rw [Bsr.unread, hsplit, bitsAt_add, hbits]⟩

/-- A run as ENC writes it, in either active mode, is read back whole; the mode change, if any, is read first. -/
theorem exists_moves_emitRun {s : State} {mode runMode : Mode} {out rest : Bits} {v : Bool} {n : Nat} (hn : 1 ≤ n)
    (h : s.dec.Reading mode runMode false out ((emitRunSymbols mode v n).flatMap symbolBits ++ rest)) :
    ∃ t, Relation.ReflTransGen DecMove s t ∧
      t.dec.Reading (Mode.ofBit v).other (Mode.ofBit v) false (out ++ List.replicate n v) rest := by
  rw [emitRunSymbols_bits, List.append_assoc] at h
  rw [← Mode.ofBit_not]
  by_cases hmode : Mode.ofBit v = mode
  · subst hmode
    rw [if_pos rfl] at h
    exact exists_moves_run hn h
  · rw [if_neg hmode] at h
    obtain ⟨t, hchange, ht⟩ := exists_move_mchg h
    have hother : mode.other = Mode.ofBit v := by
      revert hmode
      cases mode <;> cases v <;> decide
    rw [hother] at ht
    obtain ⟨u, hrun, hu⟩ := exists_moves_run hn ht
    exact ⟨u, .head hchange hrun, hu⟩

/-- Settles O48: the moves over the bits of the run, as steps of the machine; the position follows from what is left
unread. -/
theorem decodingARunKeepsModesAgreed : Obligations.DecodingARunKeepsModesAgreed := by
  intro s v n hin hrun hhold hn bits hle hbits
  obtain ⟨rest, hunread⟩ := Bsr.exists_unread_eq_append hle hbits
  obtain ⟨t, hmoves, hstatus, hmode, hrunMode, hhold', hout, hrest⟩ :=
    exists_moves_emitRun hn ⟨hrun, rfl, rfl, hhold, rfl, hunread⟩
  obtain ⟨k, hsteps⟩ := exists_run_of_moves hmoves hin
  obtain ⟨henc, _, hbuf, _, _, hpos⟩ := decFrame_of_moves hmoves
  have hmem : t.dec.bsr.mem = s.dec.bsr.mem := by rw [Bsr.mem, Bsr.mem, hbuf]
  have hrPos : t.dec.bsr.rPos = s.dec.bsr.rPos + bits.length := by
    have hlen := s.dec.bsr.unread_length
    have hlen' := t.dec.bsr.unread_length
    have hbound := hpos (by omega)
    rw [hunread, List.length_append] at hlen
    rw [hrest, hmem] at hlen'
    rw [hmem] at hbound
    omega
  refine ⟨k, t, hsteps, hout, hmode, hrunMode, hhold', hstatus, hrPos, hbuf, henc, fun e e' he hemit => ?_⟩
  obtain rfl := emitRun_eq_ok_putString hemit
  exact ⟨hmode, by rw [he]⟩

/-! ## The bits of a buffer made of another -/

theorem bitAt_ofBytes_append_left {xs ys : List Byte} {i : Nat} (h : i < 8 * xs.length) :
    bitAt (Memory.ofBytes (xs ++ ys)) i = bitAt (Memory.ofBytes xs) i := by
  rw [bitAt, bitAt, Memory.byte?_ofBytes, Memory.byte?_ofBytes, List.getElem?_append_left (by omega)]

theorem bitAt_ofBytes_append_right (xs ys : List Byte) (i : Nat) :
    bitAt (Memory.ofBytes (xs ++ ys)) (8 * xs.length + i) = bitAt (Memory.ofBytes ys) i := by
  have hbyte : (8 * xs.length + i) / 8 = xs.length + i / 8 := by omega
  have hbit : (8 * xs.length + i) % 8 = i % 8 := by omega
  rw [bitAt, bitAt, Memory.byte?_ofBytes, Memory.byte?_ofBytes, hbyte, hbit,
    List.getElem?_append_right (Nat.le_add_right ..), Nat.add_sub_cancel_left]

/-- The bits of a buffer, from its start to its end. -/
def bitsOfBytes (bs : List Byte) : Bits := bitsAt (Memory.ofBytes bs) 0 (8 * bs.length)

@[simp] theorem bitsOfBytes_length (bs : List Byte) : (bitsOfBytes bs).length = 8 * bs.length := bitsAt_length ..

theorem bitsAt_congr {m m' : Memory} {pos pos' n : Nat} (h : ∀ j, j < n → bitAt m (pos + j) = bitAt m' (pos' + j)) :
    bitsAt m pos n = bitsAt m' pos' n := by
  refine List.ext_getElem (by simp) fun j hj _ => ?_
  rw [bitsAt_getElem, bitsAt_getElem]
  exact h j (by simpa using hj)

theorem bitsOfBytes_append (xs ys : List Byte) : bitsOfBytes (xs ++ ys) = bitsOfBytes xs ++ bitsOfBytes ys := by
  rw [bitsOfBytes, List.length_append, Nat.mul_add, bitsAt_add]
  congr 1
  · exact bitsAt_congr fun j hj => bitAt_ofBytes_append_left (by omega)
  · exact bitsAt_congr fun j _ => by rw [Nat.zero_add, Nat.zero_add, bitAt_ofBytes_append_right]

/-- The bits of a canonical stream in its bytes: the stream and fewer than 8 zeros (R152). -/
theorem bitsOfBytes_compress (b : Bits) : ∃ n, n < 8 ∧
    bitsOfBytes (compress b) = streamBits b ++ List.replicate n false := by
  refine ⟨_, ?_, bitsAt_packBytes (streamBits b)⟩
  rw [packBytes_length]
  omega

/-! ## A stream and what comes after it -/

/-- A DEC that has just started reads a canonical stream up to its `TERM`, whatever comes after it. -/
theorem exists_moves_before_term {s : State} {b rest : Bits}
    (h : s.dec.Reading .mode0 .mode0 false [] (streamBits b ++ rest)) :
    ∃ t mode runMode, Relation.ReflTransGen DecMove s t ∧
      t.dec.Reading mode runMode false b (encode .term ++ rest) := by
  rw [streamBits_eq, List.append_assoc, List.append_assoc] at h
  obtain ⟨t, mode, hstart, ht, hmode⟩ := exists_moves_start h
  obtain ⟨u, mode', runMode', hruns, hu⟩ := exists_moves_runs (runsOf_pos b) (runsOf_isChain b)
    (fun r hr => hmode r.1 (runsOf_head_value b r hr)) ht
  rw [runBits_runsOf, List.nil_append] at hu
  exact ⟨u, mode', runMode', hstart.trans hruns, hu⟩

/-- `TERM` before a 1 anywhere ends the call with the warning, and in strict mode with PADDING (R173). -/
theorem exists_move_term_nonzero {s : State} {mode runMode : Mode} {hold : Bool} {out rest : Bits}
    (h : s.dec.Reading mode runMode hold out (encode .term ++ rest)) (hone : true ∈ rest) :
    ∃ t, DecMove s t ∧ t.dec.out = out ∧ t.dec.status = (if s.dec.strict then .padding else .ok) ∧
      t.dec.padNz = true := by
  obtain ⟨hrun, _, _, _, hout, hunread⟩ := h
  obtain ⟨hmove, hrest⟩ := decMove_of_exec hrun rfl rfl hunread rfl
  rw [terminate_bsr] at hrest
  have hpad : finishRead (s.past .term).dec.bsr = .paddingError := by
    rw [finishRead_eq_paddingError, ne_eq, finishRead_eq_ok, hrest]
    exact fun hzeros => absurd (hzeros true hone) (by decide)
  have hend : terminate (s.past .term) = (s.past .term).withDec
      ((s.past .term).dec.finish (if s.dec.strict then .padding else .ok) true) := by
    rw [terminate_eq, Dec.terminated, hpad]
    rfl
  rw [hend] at hmove
  exact ⟨_, hmove, hout, rfl, rfl⟩

/-- A call is the moves of DEC from its start to a state outside RUN (R179). -/
theorem decompress_of_moves {buf : List Byte} {strict : Bool} {t : State}
    (h : Relation.ReflTransGen DecMove (State.reset.withDec (Dec.started buf strict)) t)
    (ht : t.dec.status ≠ .run) : decompress buf strict = (t.dec.out, t.dec.status, t.dec.padNz) := by
  have hlen : (Dec.started buf strict).bsr.unread.length ≤ 8 * buf.length + 1 := by
    rw [started_unread, bitsAt_length]
    omega
  have hloop : decodeFrom State.reset buf strict = t := decLoop_of_moves h ht hlen
  rw [decompress, hloop]

/-- DEC as `dec_start` leaves it has the whole buffer to read. -/
theorem reading_started (buf : List Byte) (strict : Bool) :
    (State.reset.withDec (Dec.started buf strict)).dec.Reading .mode0 .mode0 false [] (bitsOfBytes buf) :=
  ⟨rfl, rfl, rfl, rfl, rfl, started_unread buf strict⟩

/-- A canonical stream ends with a 1, the last bit of `TERM` (R137). -/
theorem true_mem_streamBits (b : Bits) : true ∈ streamBits b := by
  have hterm : true ∈ encode .term := by decide
  rw [streamBits_eq]
  exact List.mem_append_right _ (List.mem_append_right _ hterm)

/-- Settles O52: the second stream lies in what the padding check examines. -/
theorem concatenatedStreamsArePadding : Obligations.ConcatenatedStreamsArePadding := by
  intro b₁ b₂ strict
  have hread := reading_started (compress b₁ ++ compress b₂) strict
  obtain ⟨n₁, _, hbits₁⟩ := bitsOfBytes_compress b₁
  obtain ⟨n₂, _, hbits₂⟩ := bitsOfBytes_compress b₂
  rw [bitsOfBytes_append, hbits₁, hbits₂, List.append_assoc] at hread
  obtain ⟨t, mode, runMode, hmoves, ht⟩ := exists_moves_before_term hread
  obtain ⟨u, hterm, hout, hstatus, hnz⟩ := exists_move_term_nonzero ht
    (List.mem_append_right _ (List.mem_append_left _ (true_mem_streamBits b₂)))
  rw [(decFrame_of_moves hmoves).strict_eq] at hstatus
  have hstatus : u.dec.status = if strict then .padding else .ok := hstatus
  have hend : u.dec.status ≠ .run := by
    rw [hstatus]
    cases strict <;> decide
  rw [decompress_of_moves (hmoves.tail hterm) hend, hout, hstatus, hnz]

/-! ## A stream cut short -/

/-- DEC's read sequencer replaced, all else kept. -/
def Dec.withBsr (d : Dec) (r : Bsr) : Dec := { d with bsr := r }

theorem Dec.exec_withBsr {i : Instr} (hi : i ≠ .term) (d : Dec) (r : Bsr) :
    (d.withBsr r).exec i = (d.exec i).withBsr r := by
  rcases d.exec_cases i with ⟨n, hlen, h⟩ | ⟨rfl, _⟩ | ⟨rfl, _⟩ | ⟨hterm, _⟩
  · rw [h, Dec.exec_of_dataLen hlen, Dec.data, Dec.data, apply_ite (Dec.withBsr · r)]
    rfl
  · rfl
  · rfl
  · exact absurd hterm hi

/-- A pattern that stands at `r_pos` is at the front of the unread bits. -/
theorem PatternAt.exists_unread_eq {tbl : Mode} {r : Bsr} {i : Instr} (h : PatternAt tbl r.mem r.rPos i) :
    ∃ rest, r.unread = encode i ++ rest := by
  obtain ⟨hle, hbits⟩ := h.stands
  exact Bsr.exists_unread_eq_append hle hbits

/-- In RUN, a pattern of the selected table at the front of the unread bits is the one that is executed. -/
theorem decMove_of_unread {s : State} {i : Instr} {rest : Bits} (hrun : s.dec.status = .run) (hwf : i.wf = true)
    (htbl : i.inTable (tableOf s.dec) = true) (hunread : s.dec.bsr.unread = encode i ++ rest) :
    ∃ p, DecMove s (s.withDec ((s.dec.seek p).exec i)) ∧ ((s.dec.seek p).exec i).bsr.unread = rest := by
  obtain ⟨hmove, hrest⟩ := decMove_of_exec hrun hwf htbl hunread (exec_eq i _)
  exact ⟨_, hmove, hrest⟩

/-- `c` is the DEC that `d` would be on a buffer that ends `cut` earlier. -/
structure Dec.CutOf (c d : Dec) (cut : Bits) : Prop where
  same : c.withBsr d.bsr = d
  unread_eq : d.bsr.unread = c.bsr.unread ++ cut

theorem DecMove.deterministic {s t u : State} (h : DecMove s t) (h' : DecMove s u) : t = u :=
  h.eq_withDec.trans h'.eq_withDec.symm

theorem Dec.CutOf.run_of_run {c d : Dec} {cut : Bits} (h : c.CutOf d cut) (hrun : d.status = .run) :
    c.status = .run := by
  rw [← h.same] at hrun
  exact hrun

theorem Dec.CutOf.out_eq {c d : Dec} {cut : Bits} (h : c.CutOf d cut) : c.out = d.out := by
  rw [← h.same]
  rfl

theorem Dec.CutOf.tableOf_eq {c d : Dec} {cut : Bits} (h : c.CutOf d cut) : tableOf d = tableOf c := by
  rw [← h.same]
  rfl

/-- A pattern other than `TERM` does the same to both. -/
theorem Dec.CutOf.exec {c d : Dec} {cut rest : Bits} (h : c.CutOf d cut) {i : Instr} (hi : i ≠ .term) (p q : Nat)
    (hc : ((c.seek p).exec i).bsr.unread = rest) (hd : ((d.seek q).exec i).bsr.unread = rest ++ cut) :
    ((c.seek p).exec i).CutOf ((d.seek q).exec i) cut := by
  refine ⟨?_, by rw [hc, hd]⟩
  have hseek : d.seek q = (c.seek p).withBsr (d.seek q).bsr := by
    conv_lhs => rw [← h.same]
    rfl
  rw [Dec.exec_bsr, ← Dec.exec_withBsr hi, ← hseek]

/-- The parse runs out of input at `r_pos`. -/
def Dec.AtEnd (d : Dec) : Prop := ∃ p, decode (tableOf d) d.bsr.mem d.bsr.rPos = .endOfInput p

/-- Where a call reads to within less than `cut` of the end of its buffer, the same call on the buffer that ends `cut`
earlier makes the same moves until its input ends, and no `TERM` is among them (R164, R176). -/
theorem exists_moves_cut {s t c : State} {cut : Bits} (h : Relation.ReflTransGen DecMove s t)
    (hshort : t.dec.bsr.unread.length < cut.length) (hcut : c.dec.CutOf s.dec cut) :
    ∃ u, Relation.ReflTransGen DecMove c u ∧ u.dec.status = .run ∧ u.dec.AtEnd ∧ u.dec.padNz = c.dec.padNz ∧
      u.dec.out <+: t.dec.out := by
  induction h using Relation.ReflTransGen.head_induction_on generalizing c with
  | refl =>
    rw [hcut.unread_eq, List.length_append] at hshort
    omega
  | @head s s' hmove hmoves ih =>
    have hrun := hcut.run_of_run hmove.run
    rcases patternAt_or_cutAt (tableOf c.dec) c.dec.bsr.mem c.dec.bsr.rPos with ⟨i, hi⟩ | ⟨p, hp⟩
    · obtain ⟨rest, hunread⟩ := hi.exists_unread_eq
      have hunread' : s.dec.bsr.unread = encode i ++ (rest ++ cut) := by
        rw [hcut.unread_eq, hunread, List.append_assoc]
      obtain ⟨p, hmovec, hrest⟩ := decMove_of_unread hrun hi.wf hi.inTable hunread
      obtain ⟨q, hmoves', hrest'⟩ := decMove_of_unread hmove.run hi.wf (hcut.tableOf_eq ▸ hi.inTable) hunread'
      obtain rfl := hmove.deterministic hmoves'
      by_cases hterm : i = .term
      · subst hterm
        rcases hmoves.cases_head with rfl | ⟨_, hnext, _⟩
        · rw [State.withDec_dec, hrest', List.length_append] at hshort
          omega
        · exact absurd hnext.run (Dec.terminated_ne_run _)
      · obtain ⟨u, hu, hurun, huend, hupad, huout⟩ :=
          ih (c := c.withDec ((c.dec.seek p).exec i)) (hcut.exec hterm p q hrest hrest')
        obtain ⟨_, hpad⟩ := (c.dec.seek p).exec_of_ne_term hterm
        exact ⟨u, .head hmovec hu, hurun, huend, hupad.trans hpad, huout⟩
    · have hframe := hmove.frame.trans (decFrame_of_moves hmoves)
      exact ⟨c, .refl, hrun, ⟨p, decode_of_cutAt hp⟩, rfl, hcut.out_eq ▸ hframe.out_le⟩

/-- The loop makes the moves, one a turn, and has turns left for what is unread. -/
theorem exists_decLoop_of_moves {s t : State} (h : Relation.ReflTransGen DecMove s t) {fuel : Nat}
    (hfuel : s.dec.bsr.unread.length < fuel) :
    ∃ left, t.dec.bsr.unread.length < left ∧ decLoop fuel s = decLoop left t := by
  induction h using Relation.ReflTransGen.head_induction_on generalizing fuel with
  | refl => exact ⟨fuel, hfuel, rfl⟩
  | head hmove _ ih =>
    obtain ⟨hrun, hstep, hshorter⟩ := hmove
    obtain ⟨fuel, rfl⟩ : ∃ f, fuel = f + 1 := Nat.exists_eq_add_one.mpr (by omega)
    rw [decLoop, if_pos hrun, hstep]
    exact ih (by omega)

/-- A call whose moves lead to where its input ends is truncated, with the output and the flag it had (R176, R193). -/
theorem decompress_of_moves_atEnd {buf : List Byte} {strict : Bool} {t : State}
    (h : Relation.ReflTransGen DecMove (State.reset.withDec (Dec.started buf strict)) t)
    (hrun : t.dec.status = .run) (hend : t.dec.AtEnd) :
    decompress buf strict = (t.dec.out, .truncated, t.dec.padNz) := by
  have hlen : (Dec.started buf strict).bsr.unread.length < 8 * buf.length + 1 := by
    rw [started_unread, bitsAt_length]
    omega
  obtain ⟨left, hleft, hloop⟩ := exists_decLoop_of_moves h hlen
  obtain ⟨left, rfl⟩ : ∃ l, left = l + 1 := Nat.exists_eq_add_one.mpr (by omega)
  obtain ⟨p, hp⟩ := hend
  have htrap : t.dec.next = (t.dec.seek p).finish .truncated t.dec.padNz := Dec.next_of_endOfInput hp
  have hstop : (t.withDec t.dec.next).dec.status ≠ .run := by
    simp [htrap]
  have hlast : decLoop (left + 1) t = t.withDec t.dec.next := by
    rw [decLoop, if_pos hrun, decStep_eq]
    exact decLoop_of_not_run hstop left
  have hdecode : decodeFrom State.reset buf strict = t.withDec t.dec.next := hloop.trans hlast
  rw [decompress, hdecode, State.withDec_dec, htrap]
  rfl

/-- Settles O53: the whole stream is read to within its padding of its end, so a call on fewer bytes makes the same
moves until its input ends. -/
theorem cutStreamIsTruncated : Obligations.CutStreamIsTruncated := by
  intro b k strict hk
  obtain ⟨n, hn, hbits⟩ := bitsOfBytes_compress b
  have hread := reading_started (compress b) strict
  rw [hbits] at hread
  obtain ⟨t, mode, runMode, hmoves, ht⟩ := exists_moves_before_term hread
  obtain ⟨p, hterm, hrest⟩ := decMove_of_unread ht.status_eq rfl rfl ht.unread_eq
  have hcut : (Dec.started ((compress b).take k) strict).CutOf (Dec.started (compress b) strict)
      (bitsOfBytes ((compress b).drop k)) := by
    refine ⟨rfl, ?_⟩
    have hsplit := bitsOfBytes_append ((compress b).take k) ((compress b).drop k)
    rw [List.take_append_drop] at hsplit
    rw [started_unread, started_unread]
    exact hsplit
  have hshort : ((t.dec.seek p).exec .term).bsr.unread.length < (bitsOfBytes ((compress b).drop k)).length := by
    rw [hrest, List.length_replicate, bitsOfBytes_length, List.length_drop]
    omega
  obtain ⟨u, hu, hrun, hend, hpad, hout⟩ := exists_moves_cut (hmoves.tail hterm) hshort
    (c := State.reset.withDec (Dec.started ((compress b).take k) strict)) hcut
  have hb : ((t.dec.seek p).exec .term).out = b := (Dec.terminated_out _).trans ht.out_eq
  refine ⟨u.dec.out, ?_, hb ▸ hout⟩
  rw [decompress_of_moves_atEnd hu hrun hend, hpad]
  rfl

end Sys2Proof.Machine
end
